-- ==== Sys2Proof/Word.lean ====
section
/-! DEFINITION. The machine word and the ways the rules read one (00_scope.md R10, R11). -/

namespace Sys2Proof

/-- A word: 16 bits, bit 15 the most significant (R10, R11). -/
abbrev Word := BitVec 16

/-- `uint(w)`, in 0..65535 (R11). -/
abbrev Word.uint (w : Word) : Int := (w.toNat : Int)

/-- `sint(w)`, in −32768..32767 (R11). -/
abbrev Word.sint (w : Word) : Int := w.toInt

/-- `trunc16(n)`: the word whose unsigned value is n mod 2^16 (R11). -/
abbrev trunc16 (n : Int) : Word := BitVec.ofInt 16 n

end Sys2Proof
end

