-- ==== Sys2Proof/Config.lean ====
section
/-! DEFINITION. What the implementation fixes (00_scope.md R9, 20_memory.md R56) and the one value the spec leaves open. -/

namespace Sys2Proof

/-- The assembler's diagnostics (30_encoding.md R129). None of them is a fault of the core. -/
inductive AssemblyErrorKind where
  | unknownMnemonic
  | duplicateLabel
  | undefinedSymbol
  | operandOutOfRange
  | malformedDirective
  deriving DecidableEq, Repr, Inhabited

namespace Config

/-- Main memory has 4096 words, at addresses 0 to 4095 (R9, R50). -/
def memWords : Nat := 4096

/-- The trap cell: an ordinary word, named only (R56, R57). -/
def trapCell : Nat := 0

/-- The interrupt-vector cells, levels 0 to 5: ordinary words, named only (R56, R58). -/
def vectorCell (level : Fin 6) : Nat := 8 + level

/-- The entry point after a reset (R263). -/
def entryPoint : BitVec 12 := 0#12

/-- FREE VALUE. Where `load` fails because its span runs past 4095, the spec says that the fault carries an
offending address (R222) and does not say which one of the span's addresses above 4095 it is; this constant,
reduced to the length of that overhang, picks it. No proof can see its value. DESIGN CHOICE, log entry 9. -/
opaque loadOverhang : Int → Nat → Nat

/-- FREE VALUE. The kind of the diagnostic of a statement whose mnemonic is known and whose operands do not have its
form: R129 lists five kinds and the spec says of none that it is this one. DESIGN CHOICE, log entry 18. -/
opaque malformedStatement : AssemblyErrorKind

/-- FREE VALUE. The text of a diagnostic of this kind at this line and column (R125): the spec gives no wording.
That a text depends on nothing else, no symbol and no mnemonic, so that two diagnostics of one kind at one place have
the same text, is the model's own restriction. DESIGN CHOICE, log entry 18. -/
opaque diagnosticMessage : AssemblyErrorKind → Nat → Nat → String

end Config

end Sys2Proof
end

