-- ==== Sys2Proof/Syntax.lean ====
section
/-! DEFINITION. The decoded instructions: one constructor per row of the decode table (30_encoding.md R96, R99). -/

namespace Sys2Proof

/-- The three index registers (10_state.md R24, R26: there is no index register 0). -/
inductive XReg where
  | xr1
  | xr2
  | xr3
  deriving DecidableEq, Repr

/-- The tag T as an index selector: `none` is T = 0, no index, a mode of its own (R84). -/
abbrev Tag := Option XReg

/-- The BSC condition bits (R90), each true when the bit is set in the instruction. -/
structure Conditions where
  /-- w0[5], letter Z: Zero = 1. -/
  z : Bool
  /-- w0[4], letter −: Sign = 1. -/
  minus : Bool
  /-- w0[3], letter +: Sign = 0 and Zero = 0. -/
  plus : Bool
  /-- w0[1], letter C: Carry = 0. -/
  carryOff : Bool
  /-- w0[0], letter O: Overflow = 0. -/
  overflowOff : Bool
  deriving DecidableEq, Repr

/-- The instructions, a constructor for each row of R96 in its order. A short form carries DISP (R86), a long form
IA and ADDR (R87, R88). For LDX and STX the tag names the register moved, which is never 0 (R95). -/
inductive Instr where
  | nop
  | sla (n : BitVec 6)
  | sra (n : BitVec 6)
  | wait
  | bsiShort (t : Tag) (disp : BitVec 8)
  | bsiLong (t : Tag) (ia : Bool) (addr : Word)
  | bscShort (c : Conditions)
  | bscLong (t : Tag) (ia : Bool) (c : Conditions) (addr : Word)
  | ldxShort (x : XReg) (disp : BitVec 8)
  | ldxLong (x : XReg) (ia : Bool) (addr : Word)
  | stxShort (x : XReg) (disp : BitVec 8)
  | stxLong (x : XReg) (ia : Bool) (addr : Word)
  | aShort (t : Tag) (disp : BitVec 8)
  | aLong (t : Tag) (ia : Bool) (addr : Word)
  | sShort (t : Tag) (disp : BitVec 8)
  | sLong (t : Tag) (ia : Bool) (addr : Word)
  | ldShort (t : Tag) (disp : BitVec 8)
  | ldLong (t : Tag) (ia : Bool) (addr : Word)
  | stoShort (t : Tag) (disp : BitVec 8)
  | stoLong (t : Tag) (ia : Bool) (addr : Word)
  | andShort (t : Tag) (disp : BitVec 8)
  | andLong (t : Tag) (ia : Bool) (addr : Word)
  | orShort (t : Tag) (disp : BitVec 8)
  | orLong (t : Tag) (ia : Bool) (addr : Word)
  deriving DecidableEq, Repr

/-- The length in words: 1 for the short format, 2 for the long (R80). -/
def Instr.words : Instr → Nat
  | .nop => 1
  | .sla _ => 1
  | .sra _ => 1
  | .wait => 1
  | .bsiShort _ _ => 1
  | .bsiLong _ _ _ => 2
  | .bscShort _ => 1
  | .bscLong _ _ _ _ => 2
  | .ldxShort _ _ => 1
  | .ldxLong _ _ _ => 2
  | .stxShort _ _ => 1
  | .stxLong _ _ _ => 2
  | .aShort _ _ => 1
  | .aLong _ _ _ => 2
  | .sShort _ _ => 1
  | .sLong _ _ _ => 2
  | .ldShort _ _ => 1
  | .ldLong _ _ _ => 2
  | .stoShort _ _ => 1
  | .stoLong _ _ _ => 2
  | .andShort _ _ => 1
  | .andLong _ _ _ => 2
  | .orShort _ _ => 1
  | .orLong _ _ _ => 2

end Sys2Proof
end

