-- ==== Sys2Proof/Machine/State.lean ====
section
/-! DEFINITION. The state vector (10_state.md R20), the faults (60_exceptions.md R220) and the refusals. -/

namespace Sys2Proof.Machine

/-- Main memory as plain data: the octets that are not 0, as (cell, octet) pairs with strictly rising cells. The word
M[a] is the octet of cell 2a (bits 15..8) and the octet of cell 2a+1 (bits 7..0); only whole words are ever read or
written (R51), so no rule can observe this split. DESIGN CHOICE, log entry 1. -/
abbrev Memory := List Host.Cell

/-- The architectural state, "exactly the following, and nothing else" (R20). The index registers XR1–XR3 are the
words M[1..3] of `mem` and have no storage of their own (R24). -/
structure State where
  /-- M[0..4095] (R20, R50). -/
  mem : Memory
  /-- ACC, the accumulator (R22). -/
  acc : Word
  /-- EXT, the extension register, which no instruction reads or writes (R23). -/
  ext : Word
  /-- IAR, the instruction address register, in 0..4095 (R28). -/
  iar : BitVec 12
  /-- The Carry flag (R31). -/
  carry : Bool
  /-- The Overflow flag (R31). -/
  overflow : Bool
  /-- The Sign flag (R31). -/
  sign : Bool
  /-- The Zero flag (R31). -/
  zero : Bool
  /-- Set by WAIT (R34). -/
  halted : Bool
  /-- Instructions executed (R35). -/
  instrCount : Nat
  /-- Cycles executed (R35). -/
  cycleCount : Nat
  deriving DecidableEq, Repr

/-- The faults of R220 with the payloads of D24. A fault is a result returned to the host; the step that raises it has
no effect (R226, R228), so the machine's state is the one before that step. All are the spec's own: safe. -/
inductive Fault where
  /-- Raised by `step` at decode: the word `word` at address `iar` meets no row of R96 (R221). Safe. -/
  | invalidOpcode (iar : BitVec 12) (word : Word)
  /-- Raised by an access to, or an IAR write of, the integer address `addr` outside 0..4095, in a step or a host
  operation (R222). Safe. -/
  | addressOutOfRange (addr : Int)
  /-- Raised by the host's `run` only, after `count` instructions without a halt (R223). Safe. -/
  | cycleLimitExceeded (count : Int)
  /-- Raised by `step` and `run` while `halted` is set (R224). Safe. -/
  | alreadyHalted
  /-- Raised by the challenge layer, which is outside the block (R6, R248): nothing in this model raises it. It stands
  here because R220 and R225 list it among the faults. Safe. -/
  | unknownChallenge
  deriving DecidableEq, Repr

/-- What has no meaning. -/
inductive Refusal where
  /-- Raised by `exec` for an instruction without a meaning. Every instruction of this model has one, so nothing
  raises it. Safe. -/
  | notModelled (mnemonic : String)
  /-- Raised by the host's `run` called with `max_cycles` below 1, a call the spec gives no meaning (R243). Safe. -/
  | cycleLimitBelowOne (maxCycles : Int)
  /-- Raised by the host's `assemble` called with a start address outside 0..4095, a call that breaks the precondition
  of R240 and has no meaning (log entry 20). Safe. -/
  | startAddressOutsideMemory (startAddr : Int)
  deriving DecidableEq, Repr

/-- The three outcomes of a step of this machine. -/
abbrev Result := Host.Outcome State Fault Refusal

/-- The machine after power-on, which is the hard-reset state (R261, R262; the values are R20's last column): every
memory word 0x0000, so nothing listed. -/
def State.reset : State where
  mem := []
  acc := 0#16
  ext := 0#16
  iar := Config.entryPoint
  carry := false
  overflow := false
  sign := false
  zero := false
  halted := false
  instrCount := 0
  cycleCount := 0

end Sys2Proof.Machine
end

