-- ==== Sys2Proof/Machine/Ops.lean ====
section
/-! DEFINITION. The named operations over memory, index registers, IAR, faults and the end of a step. -/

namespace Sys2Proof.Machine

/-! ### Updates of the state vector -/

/-- M ← m. -/
def State.setMem (s : State) (m : Memory) : State := { s with mem := m }

/-- ACC ← v. -/
def State.setAcc (s : State) (v : Word) : State := { s with acc := v }

/-- IAR ← a, for an address already checked. -/
def State.setIar (s : State) (a : BitVec 12) : State := { s with iar := a }

/-- Carry ← b. -/
def State.setCarry (s : State) (b : Bool) : State := { s with carry := b }

/-- Overflow ← b. -/
def State.setOverflow (s : State) (b : Bool) : State := { s with overflow := b }

/-- Sign ← n, Zero ← z. -/
def State.setSignZero (s : State) (n z : Bool) : State := { s with sign := n, zero := z }

/-- halted ← b. -/
def State.setHalted (s : State) (b : Bool) : State := { s with halted := b }

/-- instr_count ← instr_count + 1, cycle_count ← cycle_count + 1 (R35, R110). -/
def State.countStep (s : State) : State :=
  { s with instrCount := s.instrCount + 1, cycleCount := s.cycleCount + 1 }

/-! ### Memory -/

/-- The octet of a cell; an unlisted cell holds 0, the power-on content (R261, R262). -/
def Memory.octet : Memory → Nat → BitVec 8
  | [], _ => 0#8
  | (j, b) :: m, k => if j = k then b else Memory.octet m k

/-- Sets the octet of a cell, keeping the cells rising and no 0 listed. -/
def Memory.setOctet : Memory → Nat → BitVec 8 → Memory
  | [], k, b => if b = 0#8 then [] else [(k, b)]
  | (j, c) :: m, k, b =>
    if k < j then (if b = 0#8 then (j, c) :: m else (k, b) :: (j, c) :: m)
    else if k = j then (if b = 0#8 then m else (k, b) :: m)
    else (j, c) :: Memory.setOctet m k b

/-- The word M[a]. -/
def Memory.word (m : Memory) (a : Nat) : Word := Memory.octet m (2 * a) ++ Memory.octet m (2 * a + 1)

/-- M[a] ← v. -/
def Memory.setWord (m : Memory) (a : Nat) (v : Word) : Memory :=
  Memory.setOctet (Memory.setOctet m (2 * a) (v.extractLsb' 8 8)) (2 * a + 1) (v.extractLsb' 0 8)

/-- The cells are rising from `low` on, belong to words 0 to 4095, and hold no 0. -/
def Memory.wfFrom : Nat → Memory → Bool
  | _, [] => true
  | low, (k, b) :: m => decide (low ≤ k) && decide (k < 2 * Config.memWords) && b != 0#8 && Memory.wfFrom (k + 1) m

/-- The canonical form: equal contents are equal data. -/
def Memory.wf (m : Memory) : Bool := Memory.wfFrom 0 m

/-- `0 ≤ addr ≤ 4095` (R55). -/
abbrev inRange (addr : Int) : Prop := 0 ≤ addr ∧ addr ≤ 4095

/-- Raising a fault: the computation ends with it and every write of the step is discarded (R13, R226). There is no
trap entry: nothing is saved, no mode changes and no control is transferred (R228). -/
def raise {α : Type} (f : Fault) : Except Fault α := .error f

/-- `MemRead(addr, 1)` (R12, R52). -/
def memRead (m : Memory) (addr : Int) : Except Fault Word :=
  if inRange addr then .ok (m.word addr.toNat) else raise (.addressOutOfRange addr)

/-- `MemWrite(addr, 1, v)` (R12, R53). -/
def memWrite (m : Memory) (addr : Int) (v : Word) : Except Fault Memory :=
  if inRange addr then .ok (m.setWord addr.toNat v) else raise (.addressOutOfRange addr)

/-! ### Index registers -/

/-- XR1, XR2 and XR3 are the words at 1, 2 and 3 (R24). -/
def XReg.address : XReg → Nat
  | .xr1 => 1
  | .xr2 => 2
  | .xr3 => 3

/-- `XR[t]`, a read of M[t] (R12, R24). -/
def readXr (m : Memory) (x : XReg) : Word := m.word (XReg.address x)

/-- `XR[t] <- v`, a write of M[t] (R12, R24); it never faults. -/
def writeXr (m : Memory) (x : XReg) (v : Word) : Memory := m.setWord (XReg.address x) v

/-! ### IAR, and the end of an instruction -/

/-- `IAR <- v` (R111): checked, never wrapping (R30). -/
def writeIar (v : Int) (s : State) : Except Fault State :=
  if inRange v then .ok (s.setIar (BitVec.ofInt 12 v)) else raise (.addressOutOfRange v)

/-- `next = a + len`, the fall-through address (R14); a is IAR during the step (R29). -/
def fallThrough (s : State) (len : Nat) : Int := (s.iar.toNat : Int) + len

/-- `IAR <- next`. -/
def advance (len : Nat) (s : State) : Except Fault State := writeIar (fallThrough s len) s

/-- What Execute ends in (R113): the buffered writes together, or a fault and none of them. -/
def finish : Except Fault State → Result
  | .ok s => .next s
  | .error f => .fault f

/-- Commit (R110, R113): both counters are increased on a step that completes, and not on one that faults (R35). -/
def retire : Result → Result
  | .next s => .next s.countStep
  | .fault f => .fault f
  | .refused r => .refused r

/-- The numbers the spec gives the faults (R225). -/
def Fault.code : Fault → Nat
  | .invalidOpcode _ _ => 1
  | .addressOutOfRange _ => 2
  | .cycleLimitExceeded _ => 3
  | .alreadyHalted => 4
  | .unknownChallenge => 5

end Sys2Proof.Machine
end

