-- ==== Sys2Proof/Machine/Flags.lean ====
section
/-! DEFINITION. Results and flags of the arithmetic unit (41_arithmetic.md to 43_shift.md) and the conditions of BSC
(44_control.md R189). Each is computed on exact integers and narrowed at the end (R11, R154). -/

namespace Sys2Proof.Machine

/-- Sign ← r[15], Zero ← (r = 0x0000) (R31, R130). -/
def State.defineSignZero (s : State) (r : Word) : State := s.setSignZero (r.getLsbD 15) (r == 0#16)

/-- Whether an exact signed result falls outside the 16-bit range (R150, R152). -/
def signedOverflow (n : Int) : Bool := decide (n < -32768) || decide (n > 32767)

/-- The exact unsigned sum (R150). -/
def exactSum (a x : Word) : Int := Word.uint a + Word.uint x

/-- r of A (R150). -/
def addResult (a x : Word) : Word := trunc16 (exactSum a x)

/-- Carry of A: the unsigned sum needs a 17th bit (R150). -/
def addCarry (a x : Word) : Bool := decide (exactSum a x ≥ 65536)

/-- Overflow of A (R150). -/
def addOverflow (a x : Word) : Bool := signedOverflow (Word.sint a + Word.sint x)

/-- The exact unsigned difference (R152). -/
def exactDiff (a x : Word) : Int := Word.uint a - Word.uint x

/-- r of S (R152). -/
def subResult (a x : Word) : Word := trunc16 (exactDiff a x)

/-- Carry of S: a borrow (R152). -/
def subCarry (a x : Word) : Bool := decide (Word.uint a < Word.uint x)

/-- Overflow of S (R152). -/
def subOverflow (a x : Word) : Bool := signedOverflow (Word.sint a - Word.sint x)

/-- r of SLA: zeros fill from the right (R180). -/
def slaResult (v : Word) (n : Nat) : Word := trunc16 (Word.uint v * 2 ^ n)

/-- Carry of SLA: the last bit shifted out of bit 15, 0 past a count of 16 (R180). -/
def slaCarry (v : Word) (n : Nat) : Bool := if n ≤ 16 then v.getLsbD (16 - n) else false

/-- r of SRA: the floor of the quotient, so that copies of bit 15 fill from the left (R182). -/
def sraResult (v : Word) (n : Nat) : Word := trunc16 (Word.sint v / 2 ^ n)

/-- `CondAny(w0)` on the flags as they stand (R189). -/
def condAny (c : Conditions) (s : State) : Bool :=
  c.z && s.zero || c.minus && s.sign || c.plus && (!s.sign && !s.zero) || c.carryOff && !s.carry ||
    c.overflowOff && !s.overflow

end Sys2Proof.Machine
end

