-- ==== Sys2Proof/Machine/Operands.lean ====
section
/-! DEFINITION. The operand forms and the effective-address resolver (30_encoding.md R101–R107). -/

namespace Sys2Proof.Machine

/-- Where an instruction's operand field stands: DISP of the short format, or IA and ADDR of the long (R82, R83). -/
inductive Operand where
  | short (disp : BitVec 8)
  | long (ia : Bool) (addr : Word)
  deriving DecidableEq, Repr

/-- `len`: 1 or 2 words (R14, R80). -/
def Operand.len : Operand → Nat
  | .short _ => 1
  | .long _ _ => 2

/-- The value before indexing: sext_8(DISP) or uint(ADDR) (R86, R87, R104). -/
def Operand.base : Operand → Int
  | .short disp => disp.toInt
  | .long _ addr => Word.uint addr

/-- What the tag adds: sint(XR[T]), or nothing for T = 0 (R84, R104). -/
def indexValue (m : Memory) (t : Tag) : Int :=
  match t with
  | none => 0
  | some x => Word.sint (readXr m x)

/-- The indexed address, an exact integer (R104): the EA itself without indirection, else the pointer's address. -/
def indexed (m : Memory) (t : Tag) (o : Operand) : Int := o.base + indexValue m t

/-- `Resolve(d)` (R104): index first, then at most one indirection (R106). The EA it returns is not checked here
(R107). LDX and STX call it with no tag, since they never index (R103). -/
def resolve (m : Memory) (t : Tag) (o : Operand) : Except Fault Int :=
  match o with
  | .long true _ => do
    let p ← memRead m (indexed m t o)
    .ok (Word.uint p)
  | .long false _ => .ok (indexed m t o)
  | .short _ => .ok (indexed m t o)

/-- The memory word at the effective address: `MemRead(EA, 1)`. -/
def readOperand (m : Memory) (t : Tag) (o : Operand) : Except Fault Word := do
  let ea ← resolve m t o
  memRead m ea

/-- A store at the effective address: `MemWrite(EA, 1, v)`. -/
def writeOperand (m : Memory) (t : Tag) (o : Operand) (v : Word) : Except Fault Memory := do
  let ea ← resolve m t o
  memWrite m ea v

end Sys2Proof.Machine
end

