-- ==== Sys2Proof/Machine/Arithmetic.lean ====
section
/-! DEFINITION. A and S (41_arithmetic.md R150–R154). -/

namespace Sys2Proof.Machine

/-- A (R150). -/
def addToAcc (t : Tag) (o : Operand) (s : State) : Except Fault State := do
  let x ← readOperand s.mem t o
  let r := addResult s.acc x
  advance o.len ((((s.setCarry (addCarry s.acc x)).setOverflow (addOverflow s.acc x)).defineSignZero r).setAcc r)

/-- S (R152). -/
def subtractFromAcc (t : Tag) (o : Operand) (s : State) : Except Fault State := do
  let x ← readOperand s.mem t o
  let r := subResult s.acc x
  advance o.len ((((s.setCarry (subCarry s.acc x)).setOverflow (subOverflow s.acc x)).defineSignZero r).setAcc r)

/-- A, short format (R150). -/
def execAShort (t : Tag) (disp : BitVec 8) (s : State) : Result := finish (addToAcc t (.short disp) s)

/-- A, long format (R150). -/
def execALong (t : Tag) (ia : Bool) (addr : Word) (s : State) : Result := finish (addToAcc t (.long ia addr) s)

/-- S, short format (R152). -/
def execSShort (t : Tag) (disp : BitVec 8) (s : State) : Result := finish (subtractFromAcc t (.short disp) s)

/-- S, long format (R152). -/
def execSLong (t : Tag) (ia : Bool) (addr : Word) (s : State) : Result :=
  finish (subtractFromAcc t (.long ia addr) s)

end Sys2Proof.Machine
end

