-- ==== Sys2Proof/WellFormed.lean ====
section
/-! DEFINITION. Which terms of `Instr` are instructions. The types carry every other restriction of the encoding:
a tag for LDX and STX is never 0 (R95), a shift count has six bits (R93), a condition set has no E bit (R90). -/

namespace Sys2Proof

/-- The one check the types leave: SLA has a count of 1 to 63, its count 0 being the word of NOP (R93, R94, R96). -/
def Instr.wellFormed : Instr → Bool
  | .sla n => n != 0#6
  | .nop => true
  | .sra _ => true
  | .wait => true
  | .bsiShort _ _ => true
  | .bsiLong _ _ _ => true
  | .bscShort _ => true
  | .bscLong _ _ _ _ => true
  | .ldxShort _ _ => true
  | .ldxLong _ _ _ => true
  | .stxShort _ _ => true
  | .stxLong _ _ _ => true
  | .aShort _ _ => true
  | .aLong _ _ _ => true
  | .sShort _ _ => true
  | .sLong _ _ _ => true
  | .ldShort _ _ => true
  | .ldLong _ _ _ => true
  | .stoShort _ _ => true
  | .stoLong _ _ _ => true
  | .andShort _ _ => true
  | .andLong _ _ _ => true
  | .orShort _ _ => true
  | .orLong _ _ _ => true

end Sys2Proof
end

