-- ==== Sys2Proof/Decode.lean ====
section
/-! DEFINITION. The decoder (30_encoding.md R80–R100), then the encoder written from the same layouts. -/

namespace Sys2Proof

/-! ### Fields of the first word (R81) -/

/-- T = w0[9:8] (R84). -/
def tagField (w : Word) : Tag :=
  match w.getLsbD 9, w.getLsbD 8 with
  | false, false => none
  | false, true => some .xr1
  | true, false => some .xr2
  | true, true => some .xr3

/-- DISP = w0[7:0] (R82). -/
def dispField (w : Word) : BitVec 8 := w.extractLsb' 0 8

/-- IA = w0[7] (R83). -/
def iaField (w : Word) : Bool := w.getLsbD 7

/-- N = w0[5:0] (R93). -/
def countField (w : Word) : BitVec 6 := w.extractLsb' 0 6

/-- The condition bits (R90). -/
def condField (w : Word) : Conditions where
  z := w.getLsbD 5
  minus := w.getLsbD 4
  plus := w.getLsbD 3
  carryOff := w.getLsbD 1
  overflowOff := w.getLsbD 0

/-- `L(w) = 1 + w[10]`: the length a skip measures, from the format bit alone (R100). -/
def skipLength (w : Word) : Nat := if w.getLsbD 10 then 2 else 1

/-! ### Decode of the first word (R96, R97) -/

/-- What the first word says: no instruction, a whole short instruction, or a long one that lacks its ADDR (R98). -/
inductive FirstWord where
  | invalid
  | short (i : Instr)
  | long (complete : Word → Instr)

/-- A row of R96: `w0 & mask = pattern`, the extra condition, and the fields. -/
structure Row where
  pattern : Word
  mask : Word
  extra : Word → Bool
  build : Word → FirstWord

/-- The condition of a row (R96). -/
def Row.holds (r : Row) (w : Word) : Bool := w &&& r.mask == r.pattern && r.extra w

/-- A row without an extra condition. -/
def Row.plain (pattern mask : Word) (build : Word → FirstWord) : Row := ⟨pattern, mask, fun _ => true, build⟩

/-- A row whose tag names an index register: T ≠ 0 (R95). -/
def Row.tagged (pattern mask : Word) (build : XReg → Word → FirstWord) : Row :=
  ⟨pattern, mask, fun w => (tagField w).isSome, fun w =>
    match tagField w with
    | some x => build x w
    | none => .invalid⟩

/-- A short memory-reference row: T and DISP. -/
def Row.shortForm (pattern : Word) (make : Tag → BitVec 8 → Instr) : Row :=
  .plain pattern 0xFC00#16 fun w => .short (make (tagField w) (dispField w))

/-- A long memory-reference row: T, IA and ADDR; MOD = 0 (R89). -/
def Row.longForm (pattern : Word) (make : Tag → Bool → Word → Instr) : Row :=
  .plain pattern 0xFC7F#16 fun w => .long (make (tagField w) (iaField w))

/-- A short LDX or STX row. -/
def Row.shortIndexForm (pattern : Word) (make : XReg → BitVec 8 → Instr) : Row :=
  .tagged pattern 0xFC00#16 fun x w => .short (make x (dispField w))

/-- A long LDX or STX row. -/
def Row.longIndexForm (pattern : Word) (make : XReg → Bool → Word → Instr) : Row :=
  .tagged pattern 0xFC7F#16 fun x w => .long (make x (iaField w))

/-- The table of R96, its 24 rows in its order. -/
def decodeTable : List Row :=
  [ .plain 0x1000#16 0xFFFF#16 fun _ => .short .nop,
    ⟨0x1000#16, 0xFFC0#16, fun w => countField w != 0#6, fun w => .short (.sla (countField w))⟩,
    .plain 0x1800#16 0xFFC0#16 fun w => .short (.sra (countField w)),
    .plain 0x3000#16 0xFFFF#16 fun _ => .short .wait,
    .shortForm 0x4000#16 .bsiShort,
    .longForm 0x4400#16 .bsiLong,
    .plain 0x4800#16 0xFFC4#16 fun w => .short (.bscShort (condField w)),
    .plain 0x4C00#16 0xFC44#16 fun w => .long (.bscLong (tagField w) (iaField w) (condField w)),
    .shortIndexForm 0x6000#16 .ldxShort,
    .longIndexForm 0x6400#16 .ldxLong,
    .shortIndexForm 0x6800#16 .stxShort,
    .longIndexForm 0x6C00#16 .stxLong ] ++
  [ .shortForm 0x8000#16 .aShort,
    .longForm 0x8400#16 .aLong,
    .shortForm 0x9000#16 .sShort,
    .longForm 0x9400#16 .sLong,
    .shortForm 0xC000#16 .ldShort,
    .longForm 0xC400#16 .ldLong,
    .shortForm 0xD000#16 .stoShort,
    .longForm 0xD400#16 .stoLong,
    .shortForm 0xE000#16 .andShort,
    .longForm 0xE400#16 .andLong,
    .shortForm 0xE800#16 .orShort,
    .longForm 0xEC00#16 .orLong ]

/-- `Decode(w0)`: the first row whose condition the word meets; a word that meets none is invalid (R96, R97). -/
def decodeFirst (w : Word) : FirstWord :=
  match decodeTable.find? (·.holds w) with
  | some r => r.build w
  | none => .invalid

/-! ### Decode of a sequence of words -/

/-- Why a sequence of words is not an instruction. -/
inductive DecodeError where
  /-- The first word meets no row of R96: InvalidOpcode (R97). -/
  | invalidOpcode (word : Word)
  /-- The first word is that of a long instruction and no second word follows (R80). -/
  | secondWordMissing (word : Word)
  /-- There is no first word. -/
  | noWord
  deriving DecidableEq, Repr

/-- The instruction at the head of a sequence of words, and the words after it. Total; the second word of a long
instruction is its ADDR and is not decoded (R98). -/
def decode : List Word → Except DecodeError (Instr × List Word)
  | [] => .error .noWord
  | w :: rest =>
    match decodeFirst w with
    | .invalid => .error (.invalidOpcode w)
    | .short i => .ok (i, rest)
    | .long complete =>
      match rest with
      | [] => .error (.secondWordMissing w)
      | addr :: rest => .ok (complete addr, rest)

/-- The two words of an instruction given as the opcode table numbers its bits: bit 0 the least significant bit of
the first word, the second word bits 31..16, every bit from `nbits` up being 0. -/
def tableWords (nbits w : Nat) : Word × Word :=
  (BitVec.ofNat 16 (w % 2 ^ nbits), BitVec.ofNat 16 (w % 2 ^ nbits / 2 ^ 16))

/-- What the decoder reads from an instruction whose bits are `w`. -/
def decodeTableWord (nbits w : Nat) : Option Instr :=
  match decode [(tableWords nbits w).1, (tableWords nbits w).2] with
  | .ok (i, _) => some i
  | .error _ => none

/-! ### Encode -/

/-- The bits of an index register's number (R84). -/
def XReg.bits : XReg → BitVec 2
  | .xr1 => 1#2
  | .xr2 => 2#2
  | .xr3 => 3#2

/-- The bits of a tag (R84). -/
def Tag.bits (t : Tag) : BitVec 2 :=
  match t with
  | none => 0#2
  | some x => x.bits

/-- Bits 5..0 of a BSC: Z, −, +, E = 0, C, O (R90). -/
def Conditions.bits (c : Conditions) : BitVec 6 :=
  BitVec.ofBool c.z ++ BitVec.ofBool c.minus ++ BitVec.ofBool c.plus ++ 0#1 ++
    BitVec.ofBool c.carryOff ++ BitVec.ofBool c.overflowOff

/-- A short word: OP, F = 0, T, DISP (R82). -/
def shortWord (op : BitVec 5) (t : BitVec 2) (low : BitVec 8) : Word := op ++ 0#1 ++ t ++ low

/-- The first word of a long instruction: OP, F = 1, T, IA, MOD (R83). -/
def longWord (op : BitVec 5) (t : BitVec 2) (ia : Bool) (mod : BitVec 7) : Word :=
  op ++ 1#1 ++ t ++ BitVec.ofBool ia ++ mod

/-- The words of an instruction, from the operation codes of R85 and the layouts of R82, R83 and R91–R95. -/
def encode : Instr → List Word
  | .nop => [0x1000#16]
  | .sla n => [shortWord 0b00010#5 0#2 (0#2 ++ n)]
  | .sra n => [shortWord 0b00011#5 0#2 (0#2 ++ n)]
  | .wait => [0x3000#16]
  | .bsiShort t disp => [shortWord 0b01000#5 t.bits disp]
  | .bsiLong t ia addr => [longWord 0b01000#5 t.bits ia 0#7, addr]
  | .bscShort c => [shortWord 0b01001#5 0#2 (0#2 ++ c.bits)]
  | .bscLong t ia c addr => [longWord 0b01001#5 t.bits ia (0#1 ++ c.bits), addr]
  | .ldxShort x disp => [shortWord 0b01100#5 x.bits disp]
  | .ldxLong x ia addr => [longWord 0b01100#5 x.bits ia 0#7, addr]
  | .stxShort x disp => [shortWord 0b01101#5 x.bits disp]
  | .stxLong x ia addr => [longWord 0b01101#5 x.bits ia 0#7, addr]
  | .aShort t disp => [shortWord 0b10000#5 t.bits disp]
  | .aLong t ia addr => [longWord 0b10000#5 t.bits ia 0#7, addr]
  | .sShort t disp => [shortWord 0b10010#5 t.bits disp]
  | .sLong t ia addr => [longWord 0b10010#5 t.bits ia 0#7, addr]
  | .ldShort t disp => [shortWord 0b11000#5 t.bits disp]
  | .ldLong t ia addr => [longWord 0b11000#5 t.bits ia 0#7, addr]
  | .stoShort t disp => [shortWord 0b11010#5 t.bits disp]
  | .stoLong t ia addr => [longWord 0b11010#5 t.bits ia 0#7, addr]
  | .andShort t disp => [shortWord 0b11100#5 t.bits disp]
  | .andLong t ia addr => [longWord 0b11100#5 t.bits ia 0#7, addr]
  | .orShort t disp => [shortWord 0b11101#5 t.bits disp]
  | .orLong t ia addr => [longWord 0b11101#5 t.bits ia 0#7, addr]

end Sys2Proof
end

