-- ==== Sys2Proof/Machine/Control.lean ====
section
/-! DEFINITION. BSC in its two sub-modes and BSI (44_control.md R189–R199). -/

namespace Sys2Proof.Machine

/-- BSC short, skip on condition (R190): a skip passes over the whole following instruction (R100). -/
def skipOnCondition (c : Conditions) (s : State) : Except Fault State :=
  if condAny c s then do
    let w ← memRead s.mem (fallThrough s 1)
    writeIar (fallThrough s 1 + skipLength w) s
  else advance 1 s

/-- BSC long, branch when no selected condition holds (R191). The EA is resolved whether or not the branch is taken,
and checked only when it is (R104, R107). -/
def branchOnCondition (t : Tag) (o : Operand) (c : Conditions) (s : State) : Except Fault State := do
  let ea ← resolve s.mem t o
  if condAny c s then advance o.len s else writeIar ea s

/-- BSI (R196): the return address goes to M[EA], control to EA + 1. -/
def branchAndStore (t : Tag) (o : Operand) (s : State) : Except Fault State := do
  let ea ← resolve s.mem t o
  let m ← memWrite s.mem ea (trunc16 (fallThrough s o.len))
  writeIar (ea + 1) (s.setMem m)

/-- BSC, short format (R190). -/
def execBscShort (c : Conditions) (s : State) : Result := finish (skipOnCondition c s)

/-- BSC, long format (R191). -/
def execBscLong (t : Tag) (ia : Bool) (c : Conditions) (addr : Word) (s : State) : Result :=
  finish (branchOnCondition t (.long ia addr) c s)

/-- BSI, short format (R196). -/
def execBsiShort (t : Tag) (disp : BitVec 8) (s : State) : Result := finish (branchAndStore t (.short disp) s)

/-- BSI, long format (R196). -/
def execBsiLong (t : Tag) (ia : Bool) (addr : Word) (s : State) : Result :=
  finish (branchAndStore t (.long ia addr) s)

end Sys2Proof.Machine
end

