-- ==== Sys2Proof/Machine/LoadStore.lean ====
section
/-! DEFINITION. LD, STO, LDX and STX (40_load_store.md R130–R137). -/

namespace Sys2Proof.Machine

/-- LD (R130). -/
def loadAcc (t : Tag) (o : Operand) (s : State) : Except Fault State := do
  let v ← readOperand s.mem t o
  advance o.len ((s.setAcc v).defineSignZero v)

/-- STO (R132). -/
def storeAcc (t : Tag) (o : Operand) (s : State) : Except Fault State := do
  let m ← writeOperand s.mem t o s.acc
  advance o.len (s.setMem m)

/-- LDX (R134): the word at the unindexed EA goes to the index register. -/
def loadIndex (x : XReg) (o : Operand) (s : State) : Except Fault State := do
  let v ← readOperand s.mem none o
  advance o.len ((s.setMem (writeXr s.mem x v)).defineSignZero v)

/-- STX (R136): the index register goes to the unindexed EA. -/
def storeIndex (x : XReg) (o : Operand) (s : State) : Except Fault State := do
  let m ← writeOperand s.mem none o (readXr s.mem x)
  advance o.len (s.setMem m)

/-- LD, short format (R130). -/
def execLdShort (t : Tag) (disp : BitVec 8) (s : State) : Result := finish (loadAcc t (.short disp) s)

/-- LD, long format (R130). -/
def execLdLong (t : Tag) (ia : Bool) (addr : Word) (s : State) : Result := finish (loadAcc t (.long ia addr) s)

/-- STO, short format (R132). -/
def execStoShort (t : Tag) (disp : BitVec 8) (s : State) : Result := finish (storeAcc t (.short disp) s)

/-- STO, long format (R132). -/
def execStoLong (t : Tag) (ia : Bool) (addr : Word) (s : State) : Result := finish (storeAcc t (.long ia addr) s)

/-- LDX, short format (R134). -/
def execLdxShort (x : XReg) (disp : BitVec 8) (s : State) : Result := finish (loadIndex x (.short disp) s)

/-- LDX, long format (R134). -/
def execLdxLong (x : XReg) (ia : Bool) (addr : Word) (s : State) : Result := finish (loadIndex x (.long ia addr) s)

/-- STX, short format (R136). -/
def execStxShort (x : XReg) (disp : BitVec 8) (s : State) : Result := finish (storeIndex x (.short disp) s)

/-- STX, long format (R136). -/
def execStxLong (x : XReg) (ia : Bool) (addr : Word) (s : State) : Result := finish (storeIndex x (.long ia addr) s)

end Sys2Proof.Machine
end

