-- ==== Sys2Proof/Machine/Logical.lean ====
section
/-! DEFINITION. AND and OR (42_logical.md R170–R173). -/

namespace Sys2Proof.Machine

/-- AND (R170): Carry and Overflow are left alone. -/
def andAcc (t : Tag) (o : Operand) (s : State) : Except Fault State := do
  let x ← readOperand s.mem t o
  let r := s.acc &&& x
  advance o.len ((s.defineSignZero r).setAcc r)

/-- OR (R172): Carry and Overflow are left alone. -/
def orAcc (t : Tag) (o : Operand) (s : State) : Except Fault State := do
  let x ← readOperand s.mem t o
  let r := s.acc ||| x
  advance o.len ((s.defineSignZero r).setAcc r)

/-- AND, short format (R170). -/
def execAndShort (t : Tag) (disp : BitVec 8) (s : State) : Result := finish (andAcc t (.short disp) s)

/-- AND, long format (R170). -/
def execAndLong (t : Tag) (ia : Bool) (addr : Word) (s : State) : Result := finish (andAcc t (.long ia addr) s)

/-- OR, short format (R172). -/
def execOrShort (t : Tag) (disp : BitVec 8) (s : State) : Result := finish (orAcc t (.short disp) s)

/-- OR, long format (R172). -/
def execOrLong (t : Tag) (ia : Bool) (addr : Word) (s : State) : Result := finish (orAcc t (.long ia addr) s)

end Sys2Proof.Machine
end

