-- ==== Sys2Proof/Machine/Shift.lean ====
section
/-! DEFINITION. SLA and SRA (43_shift.md R180–R183). -/

namespace Sys2Proof.Machine

/-- SLA (R180): Overflow is left alone. The count 0 is no SLA (R94) and the decoder never gives it, log entry 8. -/
def execSla (n : BitVec 6) (s : State) : Result :=
  let r := slaResult s.acc n.toNat
  finish (advance 1 (((s.setCarry (slaCarry s.acc n.toNat)).defineSignZero r).setAcc r))

/-- SRA (R182): Carry and Overflow are left alone. -/
def execSra (n : BitVec 6) (s : State) : Result :=
  let r := sraResult s.acc n.toNat
  finish (advance 1 ((s.defineSignZero r).setAcc r))

end Sys2Proof.Machine
end

