-- ==== Sys2Proof/Machine/System.lean ====
section
/-! DEFINITION. WAIT and NOP (45_system.md R210–R213). -/

namespace Sys2Proof.Machine

/-- WAIT (R210, R211): IAR keeps the address of the WAIT, which is the address len = 0 words on. -/
def execWait (s : State) : Result := finish (advance 0 (s.setHalted true))

/-- NOP (R212): IAR advances and nothing else happens. -/
def execNop (s : State) : Result := finish (advance 1 s)

end Sys2Proof.Machine
end

