-- ==== Sys2Proof/Machine/Dispatch.lean ====
section
/-! DEFINITION. Execute(d) of 30_encoding.md R110: one arm per instruction, each a direct call of its meaning. -/

namespace Sys2Proof.Machine

def exec (i : Instr) (s : State) : Host.Outcome State Fault Refusal :=
  match i with
  | .nop => Sys2Proof.Machine.execNop s
  | .sla n => Sys2Proof.Machine.execSla n s
  | .sra n => Sys2Proof.Machine.execSra n s
  | .wait => Sys2Proof.Machine.execWait s
  | .bsiShort t disp => Sys2Proof.Machine.execBsiShort t disp s
  | .bsiLong t ia addr => Sys2Proof.Machine.execBsiLong t ia addr s
  | .bscShort c => Sys2Proof.Machine.execBscShort c s
  | .bscLong t ia c addr => Sys2Proof.Machine.execBscLong t ia c addr s
  | .ldxShort x disp => Sys2Proof.Machine.execLdxShort x disp s
  | .ldxLong x ia addr => Sys2Proof.Machine.execLdxLong x ia addr s
  | .stxShort x disp => Sys2Proof.Machine.execStxShort x disp s
  | .stxLong x ia addr => Sys2Proof.Machine.execStxLong x ia addr s
  | .aShort t disp => Sys2Proof.Machine.execAShort t disp s
  | .aLong t ia addr => Sys2Proof.Machine.execALong t ia addr s
  | .sShort t disp => Sys2Proof.Machine.execSShort t disp s
  | .sLong t ia addr => Sys2Proof.Machine.execSLong t ia addr s
  | .ldShort t disp => Sys2Proof.Machine.execLdShort t disp s
  | .ldLong t ia addr => Sys2Proof.Machine.execLdLong t ia addr s
  | .stoShort t disp => Sys2Proof.Machine.execStoShort t disp s
  | .stoLong t ia addr => Sys2Proof.Machine.execStoLong t ia addr s
  | .andShort t disp => Sys2Proof.Machine.execAndShort t disp s
  | .andLong t ia addr => Sys2Proof.Machine.execAndLong t ia addr s
  | .orShort t disp => Sys2Proof.Machine.execOrShort t disp s
  | .orLong t ia addr => Sys2Proof.Machine.execOrLong t ia addr s

end Sys2Proof.Machine
end

