-- ==== Sys2Proof/Machine/Fetch.lean ====
section
/-! DEFINITION. Fetch and decode of the instruction at IAR (30_encoding.md R110, R112), and its reverse: placing an
instruction's words there. -/

namespace Sys2Proof.Machine

/-- The first word: the fetch at IAR cannot fault, IAR being in range (R112). -/
def firstWord (s : State) : Word := s.mem.word s.iar.toNat

/-- Fetch and decode (R110): the first word is decoded before any other is read (R114), and only a long instruction
reads a second word, by an ordinary read (R112). -/
def fetchInstr (s : State) : Except Fault Instr :=
  match decodeFirst (firstWord s) with
  | .invalid => raise (.invalidOpcode s.iar (firstWord s))
  | .short i => .ok i
  | .long complete => do
    let addr ← memRead s.mem (fallThrough s 1)
    .ok (complete addr)

/-- Puts two words at IAR and the address after it (the second only where that address exists) and lets the machine
fetch: `halted` is cleared, since a halted machine fetches nothing (R115). Log entry 7. -/
def placeWords (s : State) (w0 w1 : Word) : State :=
  let m0 := s.mem.setWord s.iar.toNat w0
  let m1 := if s.iar.toNat + 1 < Config.memWords then m0.setWord (s.iar.toNat + 1) w1 else m0
  (s.setMem m1).setHalted false

end Sys2Proof.Machine
end

