-- ==== Sys2Proof/Machine/Step.lean ====
section
/-! DEFINITION. One step (30_encoding.md R110). -/

namespace Sys2Proof.Machine

/-- `Step()` (R110): refused with AlreadyHalted while halted (R115), else fetch, decode, execute, and commit with both
counters increased (R113). -/
def step (s : State) : Host.Outcome State Fault Refusal :=
  if s.halted then .fault .alreadyHalted
  else
    match fetchInstr s with
    | .error f => .fault f
    | .ok i => retire (exec i s)

/-- The state with the instruction whose bits are `w` stored where `step` fetches (log entry 7). -/
def State.withFetchWord (s : State) (nbits w : Nat) : State :=
  placeWords s (tableWords nbits w).1 (tableWords nbits w).2

end Sys2Proof.Machine
end

