-- ==== Sys2Proof/Machine/HostOps.lean ====
section
/-! DEFINITION. The operations the host may perform between steps (60_exceptions.md R240; 20_memory.md R52–R54, R69;
70_reset_and_hazards.md R260–R267). A host value is an unbounded integer. -/

namespace Sys2Proof.Machine

/-! ### Reset -/

/-- `reset()` (R260): every register, flag and counter to 0, `halted` cleared, IAR to 0; memory unchanged. -/
def softReset (s : State) : State := { State.reset with mem := s.mem }

/-- `hard_reset()` (R261): `reset()` and every memory word to 0x0000. -/
def hardReset (s : State) : State := (softReset s).setMem []

/-! ### Memory -/

/-- `read_memory(addr)` (R52, R69). -/
def readMemory (addr : Int) (s : State) : Except Fault Word := memRead s.mem addr

/-- `write_memory(addr, value)` (R53, R69). -/
def writeMemory (addr value : Int) (s : State) : Except Fault State := do
  let m ← memWrite s.mem addr (trunc16 value)
  .ok (s.setMem m)

/-- The words of `data` into M[start], M[start+1], …, each truncated (R54). -/
def storeWords : Memory → Nat → List Int → Memory
  | m, _, [] => m
  | m, start, d :: data => storeWords (m.setWord start (trunc16 d)) (start + 1) data

/-- The address a failing `load` carries (R54, R222): the start where the start itself is outside the address space,
else one of the span's addresses 4096 to start + n − 1, which the spec does not single out (log entry 9). -/
def loadFaultAddress (start : Int) (n : Nat) : Int :=
  if inRange start then
    Config.memWords + ((Config.loadOverhang start n % (start + n - Config.memWords).toNat : Nat) : Int)
  else start

/-- `load(start, data)` (R54): the whole span is checked before any word is written. -/
def loadWords (start : Int) (data : List Int) (m : Memory) : Except Fault Memory :=
  if inRange start ∧ start + data.length ≤ Config.memWords then .ok (storeWords m start.toNat data)
  else raise (.addressOutOfRange (loadFaultAddress start data.length))

/-- `load_program(start_addr, words)` (R264): a load, and IAR to the start address; a halted CPU stays halted. -/
def loadProgram (start : Int) (words : List Int) (s : State) : Except Fault State := do
  let m ← loadWords start words s.mem
  writeIar start (s.setMem m)

/-- The words of the presets into memory, one `write_memory` each (R267). -/
def presetWords : List (Int × Int) → State → Except Fault State
  | [], s => .ok s
  | (addr, value) :: rest, s => do
    let s ← writeMemory addr value s
    presetWords rest s

/-- The boot order of R267 before its `run`: hard reset, program, presets. -/
def boot (entry : Int) (words : List Int) (presets : List (Int × Int)) (s : State) : Except Fault State := do
  let s ← loadProgram entry words (hardReset s)
  presetWords presets s

/-! ### Step and run -/

/-- How a host's call of `step` or `run` ends (R240, R242). -/
inductive Ending where
  /-- `step`: the step completed. -/
  | completed
  /-- `run`: the program halted, the normal end (R245). -/
  | halted
  /-- The call failed with this fault. -/
  | failed (f : Fault)
  /-- The call has no meaning and is refused. -/
  | refused (r : Refusal)
  deriving DecidableEq, Repr

/-- `step()` as the host sees it: a fault leaves the state as it was (R226, R227). -/
def hostStep (s : State) : State × Ending :=
  match step s with
  | .next t => (t, .completed)
  | .fault f => (s, .failed f)
  | .refused r => (s, .refused r)

/-- The loop of `run` (R242) with `left` instructions still allowed. The steps completed before a fault or the limit
keep their effects. -/
def runLoop (maxCycles : Int) : Nat → State → State × Ending
  | 0, s => (s, .failed (.cycleLimitExceeded maxCycles))
  | left + 1, s =>
    match step s with
    | .next t => if t.halted then (t, .halted) else runLoop maxCycles left t
    | .fault f => (s, .failed f)
    | .refused r => (s, .refused r)

/-- `run(max_cycles)` (R242); a call with max_cycles below 1 is refused (R243). That holds of a halted machine
too, which does not report AlreadyHalted on such a call: R224 checks `halted` before anything else, R243 refuses every
such call, and no rule orders the two. DESIGN CHOICE, log entry 10. -/
def run (maxCycles : Int) (s : State) : State × Ending :=
  if maxCycles < 1 then (s, .refused (.cycleLimitBelowOne maxCycles))
  else if s.halted then (s, .failed .alreadyHalted)
  else runLoop maxCycles maxCycles.toNat s

/-! ### Getters -/

/-- A snapshot: a copy of the whole state of R20 (R37), with the values of every getter of R240. -/
structure Snapshot where
  mem : Memory
  acc : Word
  ext : Word
  iar : BitVec 12
  xr1 : Word
  xr2 : Word
  xr3 : Word
  carry : Bool
  overflow : Bool
  sign : Bool
  zero : Bool
  instrCount : Nat
  cycleCount : Nat
  halted : Bool
  deriving DecidableEq, Repr

/-- The getters read the state and change nothing (R37). -/
def snapshot (s : State) : Snapshot where
  mem := s.mem
  acc := s.acc
  ext := s.ext
  iar := s.iar
  xr1 := readXr s.mem .xr1
  xr2 := readXr s.mem .xr2
  xr3 := readXr s.mem .xr3
  carry := s.carry
  overflow := s.overflow
  sign := s.sign
  zero := s.zero
  instrCount := s.instrCount
  cycleCount := s.cycleCount
  halted := s.halted

end Sys2Proof.Machine
end

