-- ==== Sys2Proof/Machine/Source.lean ====
section
/-! DEFINITION. The assembler's source (30_encoding.md R120–R122, R127, R128): its statements, and how its lines are read. The
notation is the one of R128, which the spec gives as its own; what R120 to R128 leave open of the spelling is the
model's, log entry 16. -/

namespace Sys2Proof.Machine

/-! ### Statements -/

/-- A name or another word of the source. -/
abbrev Name := List Char

/-- The memory-reference mnemonics whose tag indexes the address (R103, R122). -/
inductive IndexedOp where
  | ld
  | sto
  | a
  | s
  | and
  | or
  | bsi
  deriving DecidableEq, Repr

/-- LDX and STX, whose tag names the register moved (R95). -/
inductive MoveOp where
  | ldx
  | stx
  deriving DecidableEq, Repr

/-- A memory-reference mnemonic with its tag (R122). -/
inductive Reference where
  | indexed (op : IndexedOp) (t : Tag)
  | move (op : MoveOp) (x : XReg)
  deriving DecidableEq, Repr

/-- How a mnemonic asks for its format: `MNEM`, `MNEM.L` or `MNEM.I` (R128). -/
inductive Form where
  | auto
  | long
  | indirect
  deriving DecidableEq, Repr

/-- An operand: a numeric literal or a label (R122). -/
inductive Expr where
  | literal (n : Int)
  | label (name : Name)
  deriving DecidableEq, Repr

/-- The two shifts. -/
inductive ShiftOp where
  | sla
  | sra
  deriving DecidableEq, Repr

/-- A statement (R121, R122, R128). -/
inductive Statement where
  /-- `MNEM t x`, `MNEM.L t x`, `MNEM.I t x`. -/
  | reference (r : Reference) (form : Form) (x : Expr)
  /-- `BSC.S c`. -/
  | skip (c : Conditions)
  /-- `BSC.L t x c`, `BSC.I t x c`. -/
  | branch (ia : Bool) (t : Tag) (x : Expr) (c : Conditions)
  /-- `SLA n`, `SRA n`. -/
  | shift (op : ShiftOp) (n : Expr)
  | wait
  | nop
  /-- `DATA v`. -/
  | data (v : Expr)
  /-- `ORG n`. -/
  | org (n : Expr)
  deriving DecidableEq, Repr

/-- What R124 calls an indexed operand, by its tag being 1 to 3; LDX and STX are among them (DEDUCED, log entry 17). -/
def Reference.tagged : Reference → Bool
  | .indexed _ t => t.isSome
  | .move _ _ => true

/-- The instruction of an indexing mnemonic. -/
def IndexedOp.instr (op : IndexedOp) (t : Tag) (o : Operand) : Instr :=
  match op, o with
  | .ld, .short d => .ldShort t d
  | .ld, .long ia addr => .ldLong t ia addr
  | .sto, .short d => .stoShort t d
  | .sto, .long ia addr => .stoLong t ia addr
  | .a, .short d => .aShort t d
  | .a, .long ia addr => .aLong t ia addr
  | .s, .short d => .sShort t d
  | .s, .long ia addr => .sLong t ia addr
  | .and, .short d => .andShort t d
  | .and, .long ia addr => .andLong t ia addr
  | .or, .short d => .orShort t d
  | .or, .long ia addr => .orLong t ia addr
  | .bsi, .short d => .bsiShort t d
  | .bsi, .long ia addr => .bsiLong t ia addr

/-- The LDX or STX. -/
def MoveOp.instr (op : MoveOp) (x : XReg) (o : Operand) : Instr :=
  match op, o with
  | .ldx, .short d => .ldxShort x d
  | .ldx, .long ia addr => .ldxLong x ia addr
  | .stx, .short d => .stxShort x d
  | .stx, .long ia addr => .stxLong x ia addr

/-- The instruction of a memory reference with its operand field. -/
def Reference.instr (r : Reference) (o : Operand) : Instr :=
  match r with
  | .indexed op t => op.instr t o
  | .move op x => op.instr x o

/-! ### Words of a line -/

/-- A word of the source and the column of its first character, counted from 1 (DESIGN CHOICE, log entry 18). -/
structure Token where
  column : Nat
  text : Name
  deriving DecidableEq, Repr

/-- The lines of a source, ended by line feeds (R120: line-oriented). -/
def splitLines : List Char → List (List Char)
  | [] => [[]]
  | c :: cs =>
    match splitLines cs with
    | [] => [[c]]
    | l :: ls => if c = '\n' then [] :: l :: ls else (c :: l) :: ls

/-- What separates words: space, tab and carriage return (DESIGN CHOICE, log entry 16). -/
def isBlank (c : Char) : Bool := c == ' ' || c == '\t' || c == '\r'

/-- The words of a line whose first character stands in column `column`. -/
def tokens : (column : Nat) → List Char → List Token
  | _, [] => []
  | column, c :: cs =>
    if isBlank c then tokens (column + 1) cs
    else
      match cs, tokens (column + 1) cs with
      | d :: _, t :: ts => if isBlank d then ⟨column, [c]⟩ :: t :: ts else ⟨column, c :: t.text⟩ :: ts
      | _, ts => ⟨column, [c]⟩ :: ts

/-! ### Numbers, tags and conditions -/

/-- The value of a digit in a base up to 16, in either case. -/
def digitValue (base : Nat) (c : Char) : Option Nat :=
  let n := c.toNat
  let v := if 48 ≤ n ∧ n ≤ 57 then n - 48 else if 65 ≤ n ∧ n ≤ 70 then n - 55 else if 97 ≤ n ∧ n ≤ 102 then n - 87 else 16
  if v < base then some v else none

/-- Digits after those whose value is `acc`. -/
def digitsFrom (base : Nat) : Nat → List Char → Option Nat
  | acc, [] => some acc
  | acc, c :: cs =>
    match digitValue base c with
    | some d => digitsFrom base (acc * base + d) cs
    | none => none

/-- One digit or more. -/
def digits (base : Nat) : List Char → Option Nat
  | [] => none
  | c :: cs => digitsFrom base 0 (c :: cs)

/-- What follows a prefix, where the word begins with it. -/
def afterPrefix : Name → Name → Option Name
  | [], w => some w
  | _ :: _, [] => none
  | p :: ps, c :: cs => if p = c then afterPrefix ps cs else none

/-- A literal without sign: decimal, or hexadecimal after HEX_PREFIX, which is an argument (R120, D40). -/
def magnitude (hexPrefix : Name) (w : Name) : Option Nat :=
  match digits 10 w with
  | some n => some n
  | none =>
    match afterPrefix hexPrefix w with
    | some rest => digits 16 rest
    | none => none

/-- A numeric literal, negative ones included (R120). -/
def number (hexPrefix : Name) (w : Name) : Option Int :=
  match w with
  | '-' :: rest => (magnitude hexPrefix rest).map fun n => -(n : Int)
  | w => (magnitude hexPrefix w).map fun n => (n : Int)

/-- An operand: a word that is no numeric literal is a label (DESIGN CHOICE, log entry 16). -/
def expr (hexPrefix : Name) (w : Name) : Expr :=
  match number hexPrefix w with
  | some n => .literal n
  | none => .label w

/-- The tag 0..3 (R122): another number is out of range, another word no tag (DESIGN CHOICE, log entry 18). -/
def parseTag (hexPrefix : Name) (w : Name) : Except AssemblyErrorKind Tag :=
  match number hexPrefix w with
  | none => .error Config.malformedStatement
  | some n =>
    if n = 0 then .ok none
    else if n = 1 then .ok (some .xr1)
    else if n = 2 then .ok (some .xr2)
    else if n = 3 then .ok (some .xr3)
    else .error .operandOutOfRange

/-- The register of LDX or STX: the tag 0 is no register (R95), an operand out of range (DESIGN CHOICE, entry 18). -/
def parseRegister (hexPrefix : Name) (w : Name) : Except AssemblyErrorKind XReg := do
  match ← parseTag hexPrefix w with
  | some x => .ok x
  | none => .error .operandOutOfRange

/-- The letters of a condition string, added to a set (R90, R128). -/
def conditionLetters : Conditions → Name → Except AssemblyErrorKind Conditions
  | c, [] => .ok c
  | c, 'Z' :: w => conditionLetters { c with z := true } w
  | c, '-' :: w => conditionLetters { c with minus := true } w
  | c, '+' :: w => conditionLetters { c with plus := true } w
  | c, 'C' :: w => conditionLetters { c with carryOff := true } w
  | c, 'O' :: w => conditionLetters { c with overflowOff := true } w
  | _, _ :: _ => .error Config.malformedStatement

/-- A condition string, `0` for none (R128). -/
def parseConditions (w : Name) : Except AssemblyErrorKind Conditions :=
  match w with
  | ['0'] => .ok ⟨false, false, false, false, false⟩
  | w => conditionLetters ⟨false, false, false, false, false⟩ w

/-! ### Mnemonics -/

/-- A mnemonic of the fourteen with its suffix, or a directive (R121, R128). -/
inductive Mnemonic where
  | indexed (op : IndexedOp) (form : Form)
  | move (op : MoveOp) (form : Form)
  /-- `BSC` without a suffix: a mnemonic of R121 to which R122 and R128 give no syntax (log entry 18). -/
  | bare
  | skip
  | branch (ia : Bool)
  | shift (op : ShiftOp)
  | wait
  | nop
  | data
  | org
  deriving DecidableEq, Repr

/-- A mnemonic as it stands and with its two suffixes. -/
def withSuffixes (name : Name) (make : Form → Mnemonic) : List (Name × Mnemonic) :=
  [(name, make .auto), (name ++ ['.', 'L'], make .long), (name ++ ['.', 'I'], make .indirect)]

/-- The fourteen mnemonics with the suffixes R128 gives them, and the two directives (R121). -/
def mnemonicTable : List (Name × Mnemonic) :=
  withSuffixes ['L', 'D'] (.indexed .ld) ++ withSuffixes ['S', 'T', 'O'] (.indexed .sto) ++
  withSuffixes ['L', 'D', 'X'] (.move .ldx) ++ withSuffixes ['S', 'T', 'X'] (.move .stx) ++
  withSuffixes ['A'] (.indexed .a) ++ withSuffixes ['S'] (.indexed .s) ++
  withSuffixes ['A', 'N', 'D'] (.indexed .and) ++ withSuffixes ['O', 'R'] (.indexed .or) ++
  withSuffixes ['B', 'S', 'I'] (.indexed .bsi) ++
  [(['B', 'S', 'C'], .bare), (['B', 'S', 'C', '.', 'S'], .skip), (['B', 'S', 'C', '.', 'L'], .branch false),
   (['B', 'S', 'C', '.', 'I'], .branch true), (['S', 'L', 'A'], .shift .sla), (['S', 'R', 'A'], .shift .sra),
   (['W', 'A', 'I', 'T'], .wait), (['N', 'O', 'P'], .nop), (['D', 'A', 'T', 'A'], .data), (['O', 'R', 'G'], .org)]

/-- A mnemonic with its operand words. A directive without its one operand is a MalformedDirective (R121); for another
statement that lacks its form the spec names no diagnostic (log entry 18). A statement has at most one diagnostic, the
first that is met: R125 does not say how many it can have (DESIGN CHOICE, log entry 18). -/
def parseOperands (hexPrefix : Name) (m : Mnemonic) (args : List Name) : Except AssemblyErrorKind Statement :=
  match m, args with
  | .indexed op form, [t, x] => do
    let t ← parseTag hexPrefix t
    .ok (.reference (.indexed op t) form (expr hexPrefix x))
  | .move op form, [t, x] => do
    let r ← parseRegister hexPrefix t
    .ok (.reference (.move op r) form (expr hexPrefix x))
  | .skip, [c] => do
    let c ← parseConditions c
    .ok (.skip c)
  | .branch ia, [t, x, c] => do
    let t ← parseTag hexPrefix t
    let c ← parseConditions c
    .ok (.branch ia t (expr hexPrefix x) c)
  | .shift op, [n] => .ok (.shift op (expr hexPrefix n))
  | .wait, [] => .ok .wait
  | .nop, [] => .ok .nop
  | .data, [v] => .ok (.data (expr hexPrefix v))
  | .org, [n] => .ok (.org (expr hexPrefix n))
  | .data, _ => .error .malformedDirective
  | .org, _ => .error .malformedDirective
  | _, _ => .error Config.malformedStatement

/-- The mnemonic and operands of a statement (R120, R121). A mnemonic with a suffix that R128 does not give it, `SLA.L`
or `LD.X`, is no mnemonic of the table and so an UnknownMnemonic; the spec does not name the kind (DESIGN CHOICE, log
entry 18). -/
def parseStatement (hexPrefix : Name) (mnemonic : Name) (args : List Name) : Except AssemblyErrorKind Statement :=
  match mnemonicTable.lookup mnemonic with
  | some m => parseOperands hexPrefix m args
  | none => .error .unknownMnemonic

/-! ### Lines -/

/-- A diagnostic: its kind, line, column and message (R125, R129). -/
structure AssemblyError where
  kind : AssemblyErrorKind
  line : Nat
  column : Nat
  message : String
  deriving DecidableEq, Repr

/-- The diagnostic of this kind at this place. -/
def diagnostic (line column : Nat) (kind : AssemblyErrorKind) : AssemblyError :=
  ⟨kind, line, column, Config.diagnosticMessage kind line column⟩

/-- The mnemonic part of a line and its column: nothing, a statement, or what is wrong with it. -/
inductive Body where
  | empty
  | statement (column : Nat) (st : Statement)
  | wrong (column : Nat) (kind : AssemblyErrorKind)
  deriving DecidableEq, Repr

/-- A line: an optional label and at most one statement (R120). -/
structure Line where
  number : Nat
  /-- The label's name and column. -/
  label : Option (Name × Nat)
  body : Body
  deriving DecidableEq, Repr

/-- The name of `name:` (R128), where the word is one and the name is no numeric literal. -/
def labelName (hexPrefix : Name) (w : Name) : Option Name :=
  match w.reverse with
  | ':' :: c :: cs => if (number hexPrefix (c :: cs).reverse).isNone then some (c :: cs).reverse else none
  | _ => none

/-- The words after the label. -/
def parseBody (hexPrefix : Name) : List Token → Body
  | [] => .empty
  | t :: ts =>
    match parseStatement hexPrefix t.text (ts.map (·.text)) with
    | .ok st => .statement t.column st
    | .error kind => .wrong t.column kind

/-- One line, from its words. -/
def parseLine (hexPrefix : Name) (lineNumber : Nat) : List Token → Line
  | [] => ⟨lineNumber, none, .empty⟩
  | t :: ts =>
    match labelName hexPrefix t.text with
    | some name => ⟨lineNumber, some (name, t.column), parseBody hexPrefix ts⟩
    | none => ⟨lineNumber, none, parseBody hexPrefix (t :: ts)⟩

/-- The lines, numbered from `lineNumber`. -/
def parseLines (hexPrefix : Name) : (lineNumber : Nat) → List (List Char) → List Line
  | _, [] => []
  | lineNumber, l :: ls => parseLine hexPrefix lineNumber (tokens 1 l) :: parseLines hexPrefix (lineNumber + 1) ls

/-- A source's lines, the first of them line 1 (DESIGN CHOICE, log entry 18). -/
def parseSource (hexPrefix : Name) (source : List Char) : List Line := parseLines hexPrefix 1 (splitLines source)

end Sys2Proof.Machine
end

