-- ==== Sys2Proof/Machine/Assembler.lean ====
section
/-! DEFINITION. The assembler's two passes and `assemble` (30_encoding.md R121–R129; 60_exceptions.md R240). It is a tool outside
the core, whose steps do not depend on it. -/

namespace Sys2Proof.Machine

/-! ### Operands and formats (R124) -/

/-- The length of an instruction, 1 or 2 words. -/
inductive Length where
  | short
  | long
  deriving DecidableEq, Repr

/-- In words (R80). -/
def Length.words : Length → Nat
  | .short => 1
  | .long => 2

/-- The operands that fit the short field (R124). -/
abbrev fitsShort (tagged : Bool) (x : Int) : Prop := (if tagged then -128 else 0) ≤ x ∧ x ≤ 127

/-- The operands that R124 lets the long format have. -/
abbrev fitsLong (tagged : Bool) (x : Int) : Prop :=
  (if tagged then -32768 else 0) ≤ x ∧ x ≤ (if tagged then 65535 else 4095)

/-- The operands of a form that names the long format: those that the address word can hold, so that `LD.L 0 4096` is a
statement, as 95_test_vectors.md LS8 has it (DEDUCED, log entry 17). -/
abbrev fitsAddress (tagged : Bool) (x : Int) : Prop := (if tagged then -32768 else 0) ≤ x ∧ x ≤ 65535

/-- The length of an operand whose value is known: short where it fits the short field, else long (R124, D41). -/
def fitLength (tagged : Bool) (x : Int) : Length := if fitsShort tagged x then .short else .long

/-- The operand field of a format that pass 1 has fixed: a value that does not fit it is out of range (R124, D42). -/
def fieldOf (tagged : Bool) (len : Length) (x : Int) : Except AssemblyErrorKind Operand :=
  match len with
  | .short => if fitsShort tagged x then .ok (.short (BitVec.ofInt 8 x)) else .error .operandOutOfRange
  | .long => if fitsLong tagged x then .ok (.long false (trunc16 x)) else .error .operandOutOfRange

/-- The operand field of a form that names the long format (R128). -/
def forcedField (tagged ia : Bool) (x : Int) : Except AssemblyErrorKind Operand :=
  if fitsAddress tagged x then .ok (.long ia (trunc16 x)) else .error .operandOutOfRange

/-- A shift with its count: SLA 1 to 63, SRA 0 to 63 (R93); another count is an operand out of range (DEDUCED, log
entry 17). -/
def ShiftOp.instr (op : ShiftOp) (n : Int) : Except AssemblyErrorKind Instr :=
  match op with
  | .sla => if 1 ≤ n ∧ n ≤ 63 then .ok (.sla (BitVec.ofInt 6 n)) else .error .operandOutOfRange
  | .sra => if 0 ≤ n ∧ n ≤ 63 then .ok (.sra (BitVec.ofInt 6 n)) else .error .operandOutOfRange

/-! ### Symbols -/

/-- The labels recorded so far and their addresses. -/
abbrev Symbols := List (Name × Int)

/-- The value of an operand, where its symbol is known. -/
def Expr.value (syms : Symbols) : Expr → Option Int
  | .literal n => some n
  | .label name => syms.lookup name

/-- ASM_LENGTH_POLICY, OPEN: from a statement and the symbols known in pass 1 to a length (D42). -/
abbrev LengthPolicy := Statement → Symbols → Length

/-! ### Pass 1 (R123) -/

/-- The words a statement takes. A memory reference whose operand is known takes those of R124; one whose operand is a
forward reference those of the policy (DEDUCED, log entry 17: D42 opens the policy for forward references). -/
def statementLength (policy : LengthPolicy) (syms : Symbols) (st : Statement) : Length :=
  match st with
  | .reference r .auto x =>
    match x.value syms with
    | some v => fitLength r.tagged v
    | none => policy st syms
  | .reference _ .long _ => .long
  | .reference _ .indirect _ => .long
  | .branch _ _ _ _ => .long
  | .skip _ => .short
  | .shift _ _ => .short
  | .wait => .short
  | .nop => .short
  | .data _ => .short
  | .org _ => .short

/-- The cursor after a statement: ORG sets it, every other statement advances it by its length (R121, R123). The spec
does not say whether an ORG outside 0..4095, or a cursor that runs past 4095, is a diagnostic: here neither is, so that
a Program may have words at addresses outside memory, whose load then fails. Nor is an ORG back over earlier words, so that a Program may have
several words at one address. DESIGN CHOICE, log entry 19. An ORG whose
label is not yet known leaves the cursor, beside its diagnostic. -/
def cursorAfter (st : Statement) (syms : Symbols) (len : Length) (cursor : Int) : Int :=
  match st with
  | .org n => (n.value syms).getD cursor
  | .reference _ _ _ => cursor + len.words
  | .skip _ => cursor + len.words
  | .branch _ _ _ _ => cursor + len.words
  | .shift _ _ => cursor + len.words
  | .wait => cursor + len.words
  | .nop => cursor + len.words
  | .data _ => cursor + len.words

/-- A statement with what pass 1 knows of it. -/
structure Placed where
  line : Nat
  column : Nat
  address : Int
  length : Length
  statement : Statement
  deriving DecidableEq, Repr

/-- What pass 1 has after some lines. -/
structure Pass1 where
  cursor : Int
  symbols : Symbols
  placed : List Placed
  errors : List AssemblyError
  deriving DecidableEq, Repr

/-- Records a line's label at the cursor; a second label of one name is a DuplicateLabel (R123), and the first
stays (DESIGN CHOICE, log entry 19). -/
def recordLabel (lineNumber : Nat) (label : Option (Name × Nat)) (p : Pass1) : Pass1 :=
  match label with
  | none => p
  | some (name, column) =>
    match p.symbols.lookup name with
    | some _ => { p with errors := p.errors ++ [diagnostic lineNumber column .duplicateLabel] }
    | none => { p with symbols := p.symbols ++ [(name, p.cursor)] }

/-- The diagnostic of an ORG whose label pass 1 does not know: UndefinedSymbol (DESIGN CHOICE, log entry 19). -/
def orgErrors (lineNumber column : Nat) (st : Statement) (syms : Symbols) : List AssemblyError :=
  match st with
  | .org n => if (n.value syms).isNone then [diagnostic lineNumber column .undefinedSymbol] else []
  | _ => []

/-- The statement of a line at the cursor. One that is wrong takes no words and is not tried by pass 2, so that it has no
diagnostic beside the one that made it wrong and its label's (DESIGN CHOICE, log entry 18). -/
def placeBody (policy : LengthPolicy) (lineNumber : Nat) (body : Body) (p : Pass1) : Pass1 :=
  match body with
  | .empty => p
  | .wrong column kind => { p with errors := p.errors ++ [diagnostic lineNumber column kind] }
  | .statement column st =>
    let len := statementLength policy p.symbols st
    { p with
      cursor := cursorAfter st p.symbols len p.cursor
      placed := p.placed ++ [⟨lineNumber, column, p.cursor, len, st⟩]
      errors := p.errors ++ orgErrors lineNumber column st p.symbols }

/-- Pass 1 on one line: its label has the address of its statement, before an ORG the cursor it leaves (DESIGN CHOICE,
log entry 19). -/
def pass1Line (policy : LengthPolicy) (p : Pass1) (l : Line) : Pass1 :=
  placeBody policy l.number l.body (recordLabel l.number l.label p)

/-- Pass 1 (R123): every line is walked, whatever the diagnostics of the lines before it (R125). -/
def pass1 (policy : LengthPolicy) (lines : List Line) (p : Pass1) : Pass1 := lines.foldl (pass1Line policy) p

/-! ### Pass 2 (R123) -/

/-- The value of an operand; UndefinedSymbol where its label is defined nowhere (R123). -/
def resolveExpr (syms : Symbols) (x : Expr) : Except AssemblyErrorKind Int :=
  match x.value syms with
  | some v => .ok v
  | none => .error .undefinedSymbol

/-- The words of a statement whose length pass 1 has fixed (R121, R123, R124). DATA takes every value, truncated, and a
branch's target is bounded as a form that names the long format (DEDUCED, log entry 17). -/
def emit (syms : Symbols) (len : Length) (st : Statement) : Except AssemblyErrorKind (List Word) :=
  match st with
  | .reference r .auto x => do
    let v ← resolveExpr syms x
    let o ← fieldOf r.tagged len v
    .ok (encode (r.instr o))
  | .reference r .long x => do
    let v ← resolveExpr syms x
    let o ← forcedField r.tagged false v
    .ok (encode (r.instr o))
  | .reference r .indirect x => do
    let v ← resolveExpr syms x
    let o ← forcedField r.tagged true v
    .ok (encode (r.instr o))
  | .branch ia t x c => do
    let v ← resolveExpr syms x
    if fitsAddress t.isSome v then .ok (encode (.bscLong t ia c (trunc16 v))) else .error .operandOutOfRange
  | .skip c => .ok (encode (.bscShort c))
  | .shift op n => do
    let v ← resolveExpr syms n
    let i ← op.instr v
    .ok (encode i)
  | .wait => .ok (encode .wait)
  | .nop => .ok (encode .nop)
  | .data v => do
    let v ← resolveExpr syms v
    .ok [trunc16 v]
  | .org _ => .ok []

/-- Words at consecutive addresses. -/
def atAddresses (address : Int) : List Word → List (Int × Word)
  | [] => []
  | w :: ws => (address, w) :: atAddresses (address + 1) ws

/-- What pass 2 has after some statements. -/
structure Pass2 where
  words : List (Int × Word)
  errors : List AssemblyError
  deriving DecidableEq, Repr

/-- Pass 2 on one statement: its (address, word) pairs, or its diagnostic. -/
def pass2Statement (syms : Symbols) (p : Pass2) (st : Placed) : Pass2 :=
  match emit syms st.length st.statement with
  | .ok ws => { p with words := p.words ++ atAddresses st.address ws }
  | .error kind => { p with errors := p.errors ++ [diagnostic st.line st.column kind] }

/-- Pass 2 (R123): every statement is tried, whatever the diagnostics of those before it (R125). -/
def pass2 (syms : Symbols) (statements : List Placed) (p : Pass2) : Pass2 := statements.foldl (pass2Statement syms) p

/-! ### assemble -/

/-- A Program (R126): "ordered sequence of (address, word) plus an entry address". -/
structure Program where
  words : List (Int × Word)
  entry : Int
  deriving DecidableEq, Repr

/-- What `assemble` answers (R126, R240). -/
inductive Assembly where
  | program (p : Program)
  /-- Every diagnostic of the source (R125): those of pass 1 by line, then those of pass 2 (log entry 18). -/
  | diagnostics (errors : List AssemblyError)
  /-- The call breaks the precondition on its start address and has no meaning (R126, R240; log entry 20). -/
  | refused (r : Refusal)
  deriving DecidableEq, Repr

/-- Pass 1 of a source from its start address, where the cursor begins (DEDUCED, log entry 19). -/
def sourcePass1 (hexPrefix : Name) (policy : LengthPolicy) (source : List Char) (startAddr : Int) : Pass1 :=
  pass1 policy (parseSource hexPrefix source) ⟨startAddr, [], [], []⟩

/-- `assemble(source, start_addr)` (R126, R240), with the two OPEN parameters of D40 and D42 as arguments. The entry is
the start address. -/
def assemble (hexPrefix : Name) (policy : LengthPolicy) (source : List Char) (startAddr : Int) : Assembly :=
  if inRange startAddr then
    let p1 := sourcePass1 hexPrefix policy source startAddr
    let p2 := pass2 p1.symbols p1.placed ⟨[], []⟩
    match p1.errors ++ p2.errors with
    | [] => .program ⟨p2.words, startAddr⟩
    | e :: es => .diagnostics (e :: es)
  else .refused (.startAddressOutsideMemory startAddr)

/-- An assembled Program put into a machine by the host's own operations: its words one `write_memory` each, and the
entry by a `load_program` of no words (R126, R264, R267; DEDUCED, log entry 19). Of two words at one
address the later one stays (DESIGN CHOICE, log entry 19). -/
def loadAssembled (p : Program) (s : State) : Except Fault State := do
  let s ← presetWords (p.words.map fun w => (w.1, (w.2.toNat : Int))) s
  loadProgram p.entry [] s

end Sys2Proof.Machine
end

