-- ==== Sys2Proof/Safety.lean ====
section
/-! DEFINITION. The terms in which claims speak of a good state and of a run that ends well. -/

namespace Sys2Proof.Machine

/-- What every state of a run satisfies: memory in canonical form (20_memory.md R50, model's own), and the two
counters equal, since each step increases both by 1 (10_state.md R35). -/
abbrev State.Inv (s : State) : Prop := s.mem.wf = true ∧ s.instrCount = s.cycleCount

/-- A run ends normally exactly when a WAIT commits (60_exceptions.md R245). -/
abbrev endsNormally (maxCycles : Int) (s : State) : Prop := (run maxCycles s).2 = .halted

/-- `Outcome` answers a next state. -/
abbrev completes (r : Result) : Prop := ∃ t, r = .next t

end Sys2Proof.Machine
end

