-- ==== Sys2Proof/Certificates/Slice0/Obligations.lean ====
section
/-! DEFINITION. The statements for the provers. Rules are of spec/; the vocabulary they share stands first. -/

namespace Sys2Proof.Claims

open Sys2Proof.Machine

/-! ### Effective addresses, from the table of R101 -/

/-- What a tag adds to an address: the word at 1, 2 or 3 read signed, or nothing (R84, R101). -/
def index (m : Memory) : Tag → Int
  | none => 0
  | some .xr1 => (m.word 1).toInt
  | some .xr2 => (m.word 2).toInt
  | some .xr3 => (m.word 3).toInt

/-- The indexed address: the EA of a direct or indexed form, the pointer's address of an indirect one (R101). -/
def indexedAddress (m : Memory) (t : Tag) : Operand → Int
  | .short disp => disp.toInt + index m t
  | .long _ addr => (addr.toNat : Int) + index m t

/-- Whether the form is indirect (R88). -/
def isIndirect : Operand → Bool
  | .short _ => false
  | .long ia _ => ia

/-- The EA of R101; for an indirect form, where its pointer can be read. -/
def effective (m : Memory) (t : Tag) (o : Operand) : Int :=
  if isIndirect o then ((m.word (indexedAddress m t o).toNat).toNat : Int) else indexedAddress m t o

/-! ### Shapes of an outcome -/

/-- The pointer read of an indirect form faults where its address is outside 0..4095 (R104); everything else happens at
the EA. -/
def Addressed (r : Result) (m : Memory) (t : Tag) (o : Operand) (atEA : Int → Prop) : Prop :=
  (isIndirect o = true → ¬ inRange (indexedAddress m t o) → r = .fault (.addressOutOfRange (indexedAddress m t o))) ∧
  ((isIndirect o = true → inRange (indexedAddress m t o)) → atEA (effective m t o))

/-- The step's last act is `IAR <- v` (R111): a fault outside 0..4095, else the next state `t` with that IAR. -/
def GoesTo (r : Result) (v : Int) (t : State) : Prop :=
  (¬ inRange v → r = .fault (.addressOutOfRange v)) ∧ (inRange v → r = .next { t with iar := BitVec.ofInt 12 v })

/-- The outcome is a next state in which the word at `addr` is `v`, every other address reads as in `s`, and everything
beside memory is as `after` says. -/
def Writes (r : Result) (s : State) (addr : Int) (v : Word) (after : Memory → State) : Prop :=
  ∃ m, r = .next (after m) ∧ m.wf = true ∧ ∀ b, memRead m b = if b = addr then .ok v else memRead s.mem b

/-- `i`, of length `len`, reads the word at its EA, changes the state by `effect` of that word and advances. -/
def ReadsOperand (i : Instr) (len : Nat) (t : Tag) (o : Operand) (effect : Word → State → State) : Prop :=
  ∀ s, Addressed (exec i s) s.mem t o fun ea =>
    (¬ inRange ea → exec i s = .fault (.addressOutOfRange ea)) ∧
    (inRange ea → GoesTo (exec i s) (s.iar.toNat + len) (effect (s.mem.word ea.toNat) s))

/-- `i`, of length `len`, stores `value` at its EA and advances. -/
def StoresOperand (i : Instr) (len : Nat) (t : Tag) (o : Operand) (value : State → Word) : Prop :=
  ∀ s, Addressed (exec i s) s.mem t o fun ea =>
    (¬ inRange ea → exec i s = .fault (.addressOutOfRange ea)) ∧
    (inRange ea → ¬ inRange (s.iar.toNat + len : Int) → exec i s = .fault (.addressOutOfRange (s.iar.toNat + len))) ∧
    (inRange ea → inRange (s.iar.toNat + len : Int) → s.mem.wf = true →
      Writes (exec i s) s ea (value s) fun m => { s with mem := m, iar := BitVec.ofInt 12 (s.iar.toNat + len) })

/-- `i`, an LDX of length `len`, loads the word at its unindexed EA into the index register and advances. -/
def LoadsIndex (i : Instr) (len : Nat) (x : XReg) (o : Operand) : Prop :=
  ∀ s, Addressed (exec i s) s.mem none o fun ea =>
    let v := s.mem.word ea.toNat
    (¬ inRange ea → exec i s = .fault (.addressOutOfRange ea)) ∧
    (inRange ea → ¬ inRange (s.iar.toNat + len : Int) → exec i s = .fault (.addressOutOfRange (s.iar.toNat + len))) ∧
    (inRange ea → inRange (s.iar.toNat + len : Int) → s.mem.wf = true →
      Writes (exec i s) s (XReg.address x) v fun m =>
        { s with mem := m, sign := v.getLsbD 15, zero := decide (v = 0#16), iar := BitVec.ofInt 12 (s.iar.toNat + len) })

/-- `i`, a BSI of length `len`, stores its fall-through address at its EA and goes to the word after it. -/
def CallsSubroutine (i : Instr) (len : Nat) (t : Tag) (o : Operand) : Prop :=
  ∀ s, Addressed (exec i s) s.mem t o fun ea =>
    (¬ inRange ea → exec i s = .fault (.addressOutOfRange ea)) ∧
    (inRange ea → ¬ inRange (ea + 1) → exec i s = .fault (.addressOutOfRange (ea + 1))) ∧
    (inRange ea → inRange (ea + 1) → s.mem.wf = true →
      Writes (exec i s) s ea (BitVec.ofNat 16 (s.iar.toNat + len)) fun m =>
        { s with mem := m, iar := BitVec.ofInt 12 (ea + 1) })

/-! ### The two rows of a memory-reference mnemonic in R96 -/

/-- The step at 4095 faults on the second word it would fetch there (R112). -/
def SecondWordFaults (s : State) : Prop :=
  s.halted = false → s.iar = 4095 → step s = .fault (.addressOutOfRange 4096)

/-- The short and long rows of a mnemonic whose tag indexes, and the fetch fault of the long form at 4095. -/
def FormsDecode (short long : Word) (makeShort : Tag → BitVec 8 → Instr) (makeLong : Tag → Bool → Word → Instr) : Prop :=
  (∀ w, w &&& 0xFC00#16 = short → decodeFirst w = .short (makeShort (tagField w) (dispField w))) ∧
  (∀ w, w &&& 0xFC7F#16 = long → decodeFirst w = .long (makeLong (tagField w) (iaField w))) ∧
  (∀ s : State, s.mem.word 4095 &&& 0xFC7F#16 = long → SecondWordFaults s)

/-- The short and long rows of LDX or STX, a tag of 0 being invalid (R95), and the fetch fault of the long form. -/
def IndexFormsDecode (short long : Word) (makeShort : XReg → BitVec 8 → Instr)
    (makeLong : XReg → Bool → Word → Instr) : Prop :=
  (∀ w, w &&& 0xFC00#16 = short → tagField w = none → decodeFirst w = .invalid) ∧
  (∀ w x, w &&& 0xFC00#16 = short → tagField w = some x → decodeFirst w = .short (makeShort x (dispField w))) ∧
  (∀ w, w &&& 0xFC7F#16 = long → tagField w = none → decodeFirst w = .invalid) ∧
  (∀ w x, w &&& 0xFC7F#16 = long → tagField w = some x → decodeFirst w = .long (makeLong x (iaField w))) ∧
  (∀ (s : State) x, s.mem.word 4095 &&& 0xFC7F#16 = long → tagField (s.mem.word 4095) = some x → SecondWordFaults s)

/-- `CondAny` on the flags of a state (R189). -/
def Selected (c : Conditions) (s : State) : Prop :=
  (c.z = true ∧ s.zero = true) ∨ (c.minus = true ∧ s.sign = true) ∨
  (c.plus = true ∧ s.sign = false ∧ s.zero = false) ∨ (c.carryOff = true ∧ s.carry = false) ∨
  (c.overflowOff = true ∧ s.overflow = false)

/-! ### The columns of R32 and the writers of R22, R34 and R60 -/

/-- The Carry column. -/
def definesCarry : Instr → Bool
  | .aShort _ _ | .aLong _ _ _ | .sShort _ _ | .sLong _ _ _ | .sla _ => true
  | _ => false

/-- The Overflow column. -/
def definesOverflow : Instr → Bool
  | .aShort _ _ | .aLong _ _ _ | .sShort _ _ | .sLong _ _ _ => true
  | _ => false

/-- The word an arithmetic instruction combines with ACC, where its EA can be read. -/
def operandWord (s : State) (t : Tag) (o : Operand) : Word := s.mem.word (effective s.mem t o).toNat

/-- The Carry column with the value of R150, R152 or R180. -/
def definedCarry (i : Instr) (s : State) : Option Bool :=
  match i with
  | .aShort t d => some (decide (s.acc.toNat + (operandWord s t (.short d)).toNat ≥ 65536))
  | .aLong t ia d => some (decide (s.acc.toNat + (operandWord s t (.long ia d)).toNat ≥ 65536))
  | .sShort t d => some (decide (s.acc.toNat < (operandWord s t (.short d)).toNat))
  | .sLong t ia d => some (decide (s.acc.toNat < (operandWord s t (.long ia d)).toNat))
  | .sla n => some (if n.toNat ≤ 16 then s.acc.getLsbD (16 - n.toNat) else false)
  | _ => none

/-- Whether an exact result is outside the signed range. -/
def outsideSigned (n : Int) : Bool := decide (n < -32768 ∨ n > 32767)

/-- The Overflow column with the value of R150 or R152. -/
def definedOverflow (i : Instr) (s : State) : Option Bool :=
  match i with
  | .aShort t d => some (outsideSigned (s.acc.toInt + (operandWord s t (.short d)).toInt))
  | .aLong t ia d => some (outsideSigned (s.acc.toInt + (operandWord s t (.long ia d)).toInt))
  | .sShort t d => some (outsideSigned (s.acc.toInt - (operandWord s t (.short d)).toInt))
  | .sLong t ia d => some (outsideSigned (s.acc.toInt - (operandWord s t (.long ia d)).toInt))
  | _ => none

/-- The instructions that write ACC (R22). -/
def writesAcc : Instr → Bool
  | .ldShort _ _ | .ldLong _ _ _ | .aShort _ _ | .aLong _ _ _ | .sShort _ _ | .sLong _ _ _ | .andShort _ _
  | .andLong _ _ _ | .orShort _ _ | .orLong _ _ _ | .sla _ | .sra _ => true
  | _ => false

/-- The Sign and Zero columns: the word of the state after the instruction that the two flags are taken from. -/
def definedResult (i : Instr) (t : State) : Option Word :=
  match i with
  | .ldxShort x _ | .ldxLong x _ _ => some (t.mem.word (XReg.address x))
  | i => if writesAcc i then some t.acc else none

/-- The one address an instruction stores to (R60): the EA of STO, STX and BSI, the index register of LDX. -/
def storedAddress (i : Instr) (s : State) : Option Int :=
  match i with
  | .stoShort t disp | .bsiShort t disp => some (effective s.mem t (.short disp))
  | .stoLong t ia addr | .bsiLong t ia addr => some (effective s.mem t (.long ia addr))
  | .stxShort _ disp => some (effective s.mem none (.short disp))
  | .stxLong _ ia addr => some (effective s.mem none (.long ia addr))
  | .ldxShort x _ | .ldxLong x _ _ => some (XReg.address x)
  | _ => none

/-- Not a BSC: an instruction that does not read the flags (R33). -/
def notBranchOnCondition : Instr → Bool
  | .bscShort _ | .bscLong _ _ _ _ => false
  | _ => true

/-- The flags of one state put into another. -/
def withFlagsOf (t s : State) : State :=
  { s with carry := t.carry, overflow := t.overflow, sign := t.sign, zero := t.zero }

/-- No condition bit set. -/
def noConditions : Conditions := ⟨false, false, false, false, false⟩

/-- The thirteen operation codes of R85. -/
def usedOps : List Nat := [0x02, 0x03, 0x06, 0x08, 0x09, 0x0C, 0x0D, 0x10, 0x12, 0x18, 0x1A, 0x1C, 0x1D]

/-- The operation codes whose long form needs MOD = 0 (R89). -/
def plainLongOps : List Nat := [0x08, 0x0C, 0x0D, 0x10, 0x12, 0x18, 0x1A, 0x1C, 0x1D]

/-- The invalid words as R97 lists them. -/
def InvalidWord (w : Word) : Prop :=
  let op := (w.extractLsb' 11 5).toNat
  let f := w.getLsbD 10
  let t := w.extractLsb' 8 2
  let zero76 := w.extractLsb' 6 2
  op ∉ usedOps ∨
  ((op = 0x02 ∨ op = 0x03) ∧ (f = true ∨ t ≠ 0#2 ∨ zero76 ≠ 0#2)) ∨
  (op = 0x06 ∧ w ≠ 0x3000#16) ∨
  (op = 0x09 ∧ f = false ∧ (t ≠ 0#2 ∨ zero76 ≠ 0#2 ∨ w.getLsbD 2 = true)) ∨
  (op = 0x09 ∧ f = true ∧ (w.getLsbD 6 = true ∨ w.getLsbD 2 = true)) ∨
  ((op = 0x0C ∨ op = 0x0D) ∧ t = 0#2) ∨
  (op ∈ plainLongOps ∧ f = true ∧ w.extractLsb' 0 7 ≠ 0#7)

/-- Two runs with the limits `n` and `n'` end alike: one exceeds its limit where the other does, each fault carrying its
own limit (R223), and every other ending is the same. -/
def SameEnd (e : Ending) (n : Int) (e' : Ending) (n' : Int) : Prop :=
  (e = .failed (.cycleLimitExceeded n) → e' = .failed (.cycleLimitExceeded n')) ∧
  (e ≠ .failed (.cycleLimitExceeded n) → e' = e ∧ ∀ k, e' ≠ .failed (.cycleLimitExceeded k))

/-- Whether the statement's tag is 1 to 3. -/
def hasTag : Reference → Bool
  | .indexed _ none => false
  | .indexed _ (some _) => true
  | .move _ _ => true

/-- R124's short field. -/
def ShortOperand (r : Reference) (x : Int) : Prop := if hasTag r then -128 ≤ x ∧ x ≤ 127 else 0 ≤ x ∧ x ≤ 127

/-- The operands R124 does not reject. -/
def AcceptedOperand (r : Reference) (x : Int) : Prop :=
  if hasTag r then -32768 ≤ x ∧ x ≤ 65535 else 0 ≤ x ∧ x ≤ 4095

/-- What the host's load sees of a span of words: each truncated word in its place, everything else as before. -/
def Loaded (m : Memory) (start : Int) (words : List Int) (m' : Memory) : Prop :=
  m'.wf = true ∧
  (∀ k (h : k < words.length), memRead m' (start + k) = .ok (BitVec.ofInt 16 words[k])) ∧
  (∀ b, b < start ∨ start + words.length ≤ b → memRead m' b = memRead m b)

end Sys2Proof.Claims

open Sys2Proof Sys2Proof.Machine Sys2Proof.Claims

/-! ### Encoding -/

/-- Decoding an encoded well-formed instruction gives it back, whatever follows it (R80–R96). -/
def Obligations.DecodeOfEncodeIsTheInstruction : Prop :=
  ∀ (i : Instr) (rest : List Word), i.wellFormed = true → decode (encode i ++ rest) = .ok (i, rest)

/-- Every word has one meaning: words that decode are the encoding of the instruction they decode to (R80–R98). -/
def Obligations.DecodedWordsAreTheEncoding : Prop :=
  ∀ (ws rest : List Word) (i : Instr), decode ws = .ok (i, rest) → i.wellFormed = true ∧ ws = encode i ++ rest

/-- R96: the 24 rows, the first that a word meets decides, no word meets two, and a word that meets none is invalid. -/
def Obligations.DecodeTableRowsAreDisjoint : Prop :=
  decodeTable.map (fun r => (r.pattern, r.mask)) =
    [(0x1000, 0xFFFF), (0x1000, 0xFFC0), (0x1800, 0xFFC0), (0x3000, 0xFFFF), (0x4000, 0xFC00), (0x4400, 0xFC7F),
     (0x4800, 0xFFC4), (0x4C00, 0xFC44), (0x6000, 0xFC00), (0x6400, 0xFC7F), (0x6800, 0xFC00), (0x6C00, 0xFC7F),
     (0x8000, 0xFC00), (0x8400, 0xFC7F), (0x9000, 0xFC00), (0x9400, 0xFC7F), (0xC000, 0xFC00), (0xC400, 0xFC7F),
     (0xD000, 0xFC00), (0xD400, 0xFC7F), (0xE000, 0xFC00), (0xE400, 0xFC7F), (0xE800, 0xFC00), (0xEC00, 0xFC7F)] ∧
  (∀ w, (decodeTable.filter (·.holds w)).length ≤ 1) ∧
  (∀ w r, r ∈ decodeTable → r.holds w = true → decodeFirst w = r.build w) ∧
  (∀ w, (∀ r ∈ decodeTable, r.holds w = false) → decodeFirst w = .invalid)

/-- R97: the invalid words are those it lists, and the step raises InvalidOpcode(a, w0) for each, whatever the rest of
the state is. -/
def Obligations.InvalidWordsAreThoseListed : Prop :=
  (∀ w, decodeFirst w = .invalid ↔ InvalidWord w) ∧
  (∀ s : State, s.halted = false → InvalidWord (s.mem.word s.iar.toNat) →
    step s = .fault (.invalidOpcode s.iar (s.mem.word s.iar.toNat)))

/-- R80, R100: an instruction's length, and with it the words its decoding uses, is what the format bit of its first
word says, which is what a skip measures. -/
def Obligations.LengthIsKnownFromTheFormatBit : Prop :=
  ∀ (w : Word) (ws rest : List Word) (i : Instr), decode (w :: ws) = .ok (i, rest) →
    i.words = (if w.getLsbD 10 then 2 else 1) ∧ skipLength w = i.words ∧ ws.length + 1 = rest.length + i.words

/-- Words written out from the encoding of one instruction of each family decode to it. -/
def Obligations.WrittenOutWordsDecode : Prop :=
  decode [0xC064#16] = .ok (.ldShort none 100, []) ∧
  decode [0xD480#16, 0x00C8#16] = .ok (.stoLong none true 200, []) ∧
  decode [0x8105#16] = .ok (.aShort (some .xr1) 5, []) ∧
  decode [0xE868#16] = .ok (.orShort none 104, []) ∧
  decode [0x1801#16] = .ok (.sra 1, []) ∧
  decode [0x4FBB#16, 0x012C#16] = .ok (.bscLong (some .xr3) true ⟨true, true, true, true, true⟩ 300, []) ∧
  decode [0x3000#16] = .ok (.wait, [])

/-! ### Memory, index registers and IAR -/

/-- R52, R53, R55: an access at an address in 0..4095 answers, and outside it faults with that address. -/
def Obligations.AccessOutsideMemoryFaults : Prop :=
  ∀ (m : Memory) (addr : Int) (v : Word),
    (0 ≤ addr → addr ≤ 4095 → memRead m addr = .ok (m.word addr.toNat) ∧ ∃ m', memWrite m addr v = .ok m') ∧
    (addr < 0 ∨ 4095 < addr →
      memRead m addr = .error (.addressOutOfRange addr) ∧ memWrite m addr v = .error (.addressOutOfRange addr))

/-- R53, R70: `write_memory` stores the value modulo 2^16 at its address, `read_memory` gives it back, every other
address and everything beside memory stay; outside 0..4095 it fails. -/
def Obligations.HostWriteReadsBackTruncated : Prop :=
  ∀ (s : State) (addr value : Int), s.mem.wf = true →
    (inRange addr → ∃ t w, writeMemory addr value s = .ok t ∧ t = { s with mem := t.mem } ∧ t.mem.wf = true ∧
      (w.toNat : Int) = value % 65536 ∧ ∀ b, readMemory b t = if b = addr then .ok w else readMemory b s) ∧
    (¬ inRange addr → writeMemory addr value s = .error (.addressOutOfRange addr))

/-- R24: the index registers are the words at 1 to 3: a host write shows in the getters, and an LDX's write shows in
`read_memory`. -/
def Obligations.IndexRegistersAreMemoryWords : Prop :=
  (∀ s : State, .ok (snapshot s).xr1 = readMemory 1 s ∧ .ok (snapshot s).xr2 = readMemory 2 s ∧
    .ok (snapshot s).xr3 = readMemory 3 s) ∧
  (∀ (s t : State) (value : Int), s.mem.wf = true →
    (writeMemory 1 value s = .ok t → (snapshot t).xr1 = trunc16 value) ∧
    (writeMemory 2 value s = .ok t → (snapshot t).xr2 = trunc16 value) ∧
    (writeMemory 3 value s = .ok t → (snapshot t).xr3 = trunc16 value)) ∧
  (∀ (s t : State) (x : XReg) (disp : BitVec 8) (v : Word), s.mem.wf = true →
    readMemory disp.toInt s = .ok v → exec (.ldxShort x disp) s = .next t → readMemory (XReg.address x) t = .ok v)

/-- R101: the effective address of each of the six addressing modes, with the fault of the indirect ones (R104); it is
the EA by which the statements below speak of an operand. -/
def Obligations.EffectiveAddressTable : Prop :=
  (∀ (m : Memory) (t : Tag) (o : Operand),
    ((isIndirect o = true → inRange (indexedAddress m t o)) → resolve m t o = .ok (effective m t o)) ∧
    (isIndirect o = true → ¬ inRange (indexedAddress m t o) →
      resolve m t o = .error (.addressOutOfRange (indexedAddress m t o)))) ∧
  ∀ (m : Memory) (x : XReg) (disp : BitVec 8) (addr : Word),
    resolve m none (.short disp) = .ok disp.toInt ∧
    resolve m (some x) (.short disp) = .ok (disp.toInt + (m.word (XReg.address x)).toInt) ∧
    resolve m none (.long false addr) = .ok (addr.toNat : Int) ∧
    resolve m (some x) (.long false addr) = .ok (addr.toNat + (m.word (XReg.address x)).toInt) ∧
    resolve m none (.long true addr) = (memRead m addr.toNat).map (fun p => (p.toNat : Int)) ∧
    resolve m (some x) (.long true addr) =
      (memRead m (addr.toNat + (m.word (XReg.address x)).toInt)).map (fun p => (p.toNat : Int))

/-- R111: an IAR write takes the value in 0..4095 and faults with it outside. -/
def Obligations.IarWriteIsChecked : Prop :=
  ∀ (v : Int) (s : State),
    (v < 0 ∨ v > 4095 → writeIar v s = .error (.addressOutOfRange v)) ∧
    (0 ≤ v → v ≤ 4095 → ∃ a : BitVec 12, (a.toNat : Int) = v ∧ writeIar v s = .ok { s with iar := a })

/-! ### The instructions -/

/-- R130: LD, both formats: its rows, its result, its flags, its faults and that nothing else changes. -/
def Obligations.LdLoadsTheOperand : Prop :=
  let effect : Word → State → State := fun v s => { s with acc := v, sign := v.getLsbD 15, zero := decide (v = 0#16) }
  FormsDecode 0xC000#16 0xC400#16 .ldShort .ldLong ∧
  (∀ t disp, ReadsOperand (.ldShort t disp) 1 t (.short disp) effect) ∧
  (∀ t ia addr, ReadsOperand (.ldLong t ia addr) 2 t (.long ia addr) effect)

/-- R132: STO, both formats: it stores ACC at its EA and changes nothing else but IAR. -/
def Obligations.StoStoresTheAccumulator : Prop :=
  FormsDecode 0xD000#16 0xD400#16 .stoShort .stoLong ∧
  (∀ t disp, StoresOperand (.stoShort t disp) 1 t (.short disp) (·.acc)) ∧
  (∀ t ia addr, StoresOperand (.stoLong t ia addr) 2 t (.long ia addr) (·.acc))

/-- R134: LDX, both formats: it loads the word at its unindexed EA into the index register and sets Sign and Zero. -/
def Obligations.LdxLoadsTheIndexRegister : Prop :=
  IndexFormsDecode 0x6000#16 0x6400#16 .ldxShort .ldxLong ∧
  (∀ x disp, LoadsIndex (.ldxShort x disp) 1 x (.short disp)) ∧
  (∀ x ia addr, LoadsIndex (.ldxLong x ia addr) 2 x (.long ia addr))

/-- R136: STX, both formats: it stores the index register at its unindexed EA and changes nothing else but IAR. -/
def Obligations.StxStoresTheIndexRegister : Prop :=
  IndexFormsDecode 0x6800#16 0x6C00#16 .stxShort .stxLong ∧
  (∀ x disp, StoresOperand (.stxShort x disp) 1 none (.short disp) fun s => s.mem.word (XReg.address x)) ∧
  (∀ x ia addr, StoresOperand (.stxLong x ia addr) 2 none (.long ia addr) fun s => s.mem.word (XReg.address x))

/-- R150: A, both formats: the sum modulo 2^16, all four flags from this addition, its faults, and the frame. -/
def Obligations.AddsTheOperand : Prop :=
  let effect : Word → State → State := fun x s =>
    { s with acc := s.acc + x, carry := decide (s.acc.toNat + x.toNat ≥ 65536)
             overflow := decide (s.acc.toInt + x.toInt < -32768 ∨ s.acc.toInt + x.toInt > 32767)
             sign := (s.acc + x).getLsbD 15, zero := decide (s.acc + x = 0#16) }
  FormsDecode 0x8000#16 0x8400#16 .aShort .aLong ∧
  (∀ t disp, ReadsOperand (.aShort t disp) 1 t (.short disp) effect) ∧
  (∀ t ia addr, ReadsOperand (.aLong t ia addr) 2 t (.long ia addr) effect)

/-- R152: S, both formats: the difference modulo 2^16, all four flags from this subtraction, its faults, the frame. -/
def Obligations.SubtractsTheOperand : Prop :=
  let effect : Word → State → State := fun x s =>
    { s with acc := s.acc - x, carry := decide (s.acc.toNat < x.toNat)
             overflow := decide (s.acc.toInt - x.toInt < -32768 ∨ s.acc.toInt - x.toInt > 32767)
             sign := (s.acc - x).getLsbD 15, zero := decide (s.acc - x = 0#16) }
  FormsDecode 0x9000#16 0x9400#16 .sShort .sLong ∧
  (∀ t disp, ReadsOperand (.sShort t disp) 1 t (.short disp) effect) ∧
  (∀ t ia addr, ReadsOperand (.sLong t ia addr) 2 t (.long ia addr) effect)

/-- R170: AND, both formats. -/
def Obligations.AndsTheOperand : Prop :=
  let effect : Word → State → State := fun x s =>
    { s with acc := s.acc &&& x, sign := (s.acc &&& x).getLsbD 15, zero := decide (s.acc &&& x = 0#16) }
  FormsDecode 0xE000#16 0xE400#16 .andShort .andLong ∧
  (∀ t disp, ReadsOperand (.andShort t disp) 1 t (.short disp) effect) ∧
  (∀ t ia addr, ReadsOperand (.andLong t ia addr) 2 t (.long ia addr) effect)

/-- R172: OR, both formats. -/
def Obligations.OrsTheOperand : Prop :=
  let effect : Word → State → State := fun x s =>
    { s with acc := s.acc ||| x, sign := (s.acc ||| x).getLsbD 15, zero := decide (s.acc ||| x = 0#16) }
  FormsDecode 0xE800#16 0xEC00#16 .orShort .orLong ∧
  (∀ t disp, ReadsOperand (.orShort t disp) 1 t (.short disp) effect) ∧
  (∀ t ia addr, ReadsOperand (.orLong t ia addr) 2 t (.long ia addr) effect)

/-- R180: SLA of every count 1 to 63. -/
def Obligations.ShiftsLeft : Prop :=
  (∀ w, w &&& 0xFFC0#16 = 0x1000#16 → w ≠ 0x1000#16 → decodeFirst w = .short (.sla (w.extractLsb' 0 6))) ∧
  (∀ (n : BitVec 6) (s : State), n ≠ 0#6 → GoesTo (exec (.sla n) s) (s.iar.toNat + 1)
    { s with acc := s.acc <<< n.toNat, carry := if n.toNat ≤ 16 then s.acc.getLsbD (16 - n.toNat) else false
             sign := (s.acc <<< n.toNat).getLsbD 15, zero := decide (s.acc <<< n.toNat = 0#16) }) ∧
  (∀ (n : BitVec 6) (s t : State), n.toNat ≥ 16 → exec (.sla n) s = .next t → t.acc = 0#16)

/-- R182: SRA of every count 0 to 63. -/
def Obligations.ShiftsRightKeepingTheSign : Prop :=
  (∀ w, w &&& 0xFFC0#16 = 0x1800#16 → decodeFirst w = .short (.sra (w.extractLsb' 0 6))) ∧
  (∀ (n : BitVec 6) (s : State), GoesTo (exec (.sra n) s) (s.iar.toNat + 1)
    { s with acc := s.acc.sshiftRight n.toNat, sign := s.acc.getLsbD 15
             zero := decide (s.acc.sshiftRight n.toNat = 0#16) }) ∧
  (∀ (n : BitVec 6) (s t : State), n.toNat ≥ 15 → exec (.sra n) s = .next t →
    t.acc = if s.acc.getLsbD 15 then 0xFFFF#16 else 0#16)

/-- R189: CondAny of a word's bits, false with no condition bit set. -/
def Obligations.ConditionsTestTheFlags : Prop :=
  (∀ (w : Word) (s : State), condAny (condField w) s = true ↔
    (w.getLsbD 5 = true ∧ s.zero = true) ∨ (w.getLsbD 4 = true ∧ s.sign = true) ∨
    (w.getLsbD 3 = true ∧ s.sign = false ∧ s.zero = false) ∨ (w.getLsbD 1 = true ∧ s.carry = false) ∨
    (w.getLsbD 0 = true ∧ s.overflow = false)) ∧
  (∀ (c : Conditions) (s : State), condAny c s = true ↔ Selected c s) ∧ ∀ s : State, condAny noConditions s = false

/-- R190: the skip, when any selected condition holds, over the whole following instruction. -/
def Obligations.ShortBscSkipsTheNextInstruction : Prop :=
  (∀ w, w &&& 0xFFC4#16 = 0x4800#16 → decodeFirst w = .short (.bscShort (condField w))) ∧
  ∀ (c : Conditions) (s : State),
    let next : Int := s.iar.toNat + 1
    (Selected c s → ¬ inRange next → exec (.bscShort c) s = .fault (.addressOutOfRange next)) ∧
    (Selected c s → inRange next →
      GoesTo (exec (.bscShort c) s) (next + if (s.mem.word next.toNat).getLsbD 10 then 2 else 1) s) ∧
    (¬ Selected c s → GoesTo (exec (.bscShort c) s) next s)

/-- R191: the branch, when no selected condition holds; the pointer of an indirect form is read either way. -/
def Obligations.LongBscBranches : Prop :=
  (∀ w, w &&& 0xFC44#16 = 0x4C00#16 → decodeFirst w = .long (.bscLong (tagField w) (iaField w) (condField w))) ∧
  (∀ s : State, s.mem.word 4095 &&& 0xFC44#16 = 0x4C00#16 → SecondWordFaults s) ∧
  ∀ (t : Tag) (ia : Bool) (c : Conditions) (addr : Word) (s : State),
    Addressed (exec (.bscLong t ia c addr) s) s.mem t (.long ia addr) fun ea =>
      (¬ Selected c s → GoesTo (exec (.bscLong t ia c addr) s) ea s) ∧
      (Selected c s → GoesTo (exec (.bscLong t ia c addr) s) (s.iar.toNat + 2) s)

/-- R196: BSI, both formats. -/
def Obligations.BsiStoresTheReturnAddress : Prop :=
  FormsDecode 0x4000#16 0x4400#16 .bsiShort .bsiLong ∧
  (∀ t disp, CallsSubroutine (.bsiShort t disp) 1 t (.short disp)) ∧
  (∀ t ia addr, CallsSubroutine (.bsiLong t ia addr) 2 t (.long ia addr))

/-- R197: a call of x by `BSI.L 0 x` followed by `BSC.I 0 x 0`, with the link word still in place, comes back to the
instruction after the call. -/
def Obligations.ReturnThroughTheLinkWord : Prop :=
  ∀ (s : State) (x : Word), s.mem.wf = true → x.toNat < 4095 → s.iar.toNat + 2 ≤ 4095 →
    ∃ t, exec (.bsiLong none false x) s = .next t ∧ t.iar.toNat = x.toNat + 1 ∧
      ∀ u : State, u.mem.word x.toNat = t.mem.word x.toNat →
        exec (.bscLong none true noConditions x) u = .next { u with iar := BitVec.ofNat 12 (s.iar.toNat + 2) }

/-- R210: WAIT never faults, sets `halted` and keeps IAR; its step is counted. -/
def Obligations.WaitHalts : Prop :=
  decodeFirst 0x3000#16 = .short .wait ∧
  (∀ s : State, exec .wait s = .next { s with halted := true }) ∧
  (∀ s : State, s.halted = false → s.mem.word s.iar.toNat = 0x3000#16 →
    step s = .next { s with halted := true, instrCount := s.instrCount + 1, cycleCount := s.cycleCount + 1 })

/-- R212: NOP changes IAR and the counters only. -/
def Obligations.NopOnlyAdvances : Prop :=
  decodeFirst 0x1000#16 = .short .nop ∧
  (∀ s : State, GoesTo (exec .nop s) (s.iar.toNat + 1) s) ∧
  (∀ s : State, s.halted = false → s.mem.word s.iar.toNat = 0x1000#16 → s.iar.toNat < 4095 →
    step s = .next { s with iar := s.iar + 1, instrCount := s.instrCount + 1, cycleCount := s.cycleCount + 1 })

/-! ### Flags and frames over all instructions -/

/-- R151. -/
def Obligations.AddOverflowIsTheSignRule : Prop :=
  ∀ a x : Word, addOverflow a x =
    (a.getLsbD 15 == x.getLsbD 15 && (addResult a x).getLsbD 15 != a.getLsbD 15)

/-- R153. -/
def Obligations.SubtractOverflowIsTheSignRule : Prop :=
  ∀ a x : Word, subOverflow a x =
    (a.getLsbD 15 != x.getLsbD 15 && (subResult a x).getLsbD 15 != a.getLsbD 15)

/-- R32: for every instruction, the flags it defines take its value and the flags it does not define are unchanged. -/
def Obligations.FlagTable : Prop :=
  ∀ (i : Instr) (s t : State), s.mem.wf = true → exec i s = .next t →
    t.carry = (definedCarry i s).getD s.carry ∧ t.overflow = (definedOverflow i s).getD s.overflow ∧
    (∀ r, definedResult i t = some r → t.sign = r.getLsbD 15 ∧ t.zero = decide (r = 0#16)) ∧
    (definedResult i t = none → t.sign = s.sign ∧ t.zero = s.zero)

/-- R22, R23, R34, R35, R60: what every instruction leaves alone beside the flags. -/
def Obligations.RegisterFrame : Prop :=
  ∀ (i : Instr) (s t : State), exec i s = .next t →
    t.ext = s.ext ∧ t.instrCount = s.instrCount ∧ t.cycleCount = s.cycleCount ∧
    (writesAcc i = false → t.acc = s.acc) ∧
    (i ≠ .wait → t.halted = s.halted) ∧
    (storedAddress i s = none → t.mem = s.mem)

/-- R60: no instruction changes a memory word but the one at the address it stores to. -/
def Obligations.OnlyTheStoredWordChanges : Prop :=
  ∀ (i : Instr) (s t : State), exec i s = .next t →
    ∀ b, storedAddress i s ≠ some b → memRead t.mem b = memRead s.mem b

/-- R33: an instruction other than BSC does the same whatever the flags are: it completes in the same states, what it
leaves beside the flags is the same, and so are the flags it defines, and it faults in the same states with the same
fault; after a reset the flags are 0. -/
def Obligations.OnlyBscReadsTheFlags : Prop :=
  (∀ (i : Instr) (s f t : State), notBranchOnCondition i = true → exec i s = .next t →
    ∃ u, exec i (withFlagsOf f s) = .next u ∧ withFlagsOf f u = withFlagsOf f t ∧
      (definesCarry i = true → u.carry = t.carry) ∧ (definesOverflow i = true → u.overflow = t.overflow) ∧
      (definedResult i t ≠ none → u.sign = t.sign ∧ u.zero = t.zero)) ∧
  (∀ (i : Instr) (s f : State) (e : Fault), notBranchOnCondition i = true → exec i s = .fault e →
    exec i (withFlagsOf f s) = .fault e) ∧
  (∀ s : State, (softReset s).acc = 0#16 ∧ (softReset s).carry = false ∧ (softReset s).overflow = false ∧
    (softReset s).sign = false ∧ (softReset s).zero = false)

/-- R23: no step reads or writes EXT, both resets clear it, no other host operation changes it, its getter gives it. -/
def Obligations.ExtIsNeitherReadNorWritten : Prop :=
  (∀ (s t : State) (e : Word), step s = .next t →
    t.ext = s.ext ∧ step { s with ext := e } = .next { t with ext := e }) ∧
  (∀ (s : State) (e : Word) (f : Fault), step s = .fault f → step { s with ext := e } = .fault f) ∧
  (∀ s : State, (softReset s).ext = 0#16 ∧ (hardReset s).ext = 0#16 ∧ (snapshot s).ext = s.ext) ∧
  (∀ (s t : State) (a v : Int), writeMemory a v s = .ok t → t.ext = s.ext) ∧
  (∀ (s t : State) (a : Int) (ws : List Int), loadProgram a ws s = .ok t → t.ext = s.ext)

/-! ### The step -/

/-- R110, R113: where the words at IAR decode to an instruction, a step is exec of it with both counters increased by 1,
and a fault of it is the step's. -/
def Obligations.StepRunsTheDecodedInstruction : Prop :=
  ∀ (s : State) (i : Instr), s.halted = false →
    (decode [s.mem.word s.iar.toNat] = .ok (i, []) ∨
      (s.iar.toNat < 4095 ∧ decode [s.mem.word s.iar.toNat, s.mem.word (s.iar.toNat + 1)] = .ok (i, []))) →
    (∀ t, exec i s = .next t →
      step s = .next { t with instrCount := t.instrCount + 1, cycleCount := t.cycleCount + 1 }) ∧
    (∀ f, exec i s = .fault f → step s = .fault f)

/-- R110, R112, R114: the faults before execution, in their order: AlreadyHalted, then InvalidOpcode, then the fetch of
the second word of a long instruction at 4095. -/
def Obligations.FaultsBeforeExecutionInOrder : Prop :=
  ∀ s : State,
    (s.halted = true → step s = .fault .alreadyHalted) ∧
    (s.halted = false → decodeFirst (s.mem.word s.iar.toNat) = .invalid →
      step s = .fault (.invalidOpcode s.iar (s.mem.word s.iar.toNat))) ∧
    (s.halted = false → s.iar = 4095 → (∃ k, decodeFirst (s.mem.word 4095) = .long k) →
      step s = .fault (.addressOutOfRange 4096))

/-- R220 to R224: a step never refuses, and the only faults it raises are AlreadyHalted while halted, InvalidOpcode with
the word at IAR, and AddressOutOfRange with an address outside 0..4095. -/
def Obligations.StepFaultsAreTheCoreFaults : Prop :=
  ∀ s : State, (∀ q, step s ≠ .refused q) ∧
    ∀ f, step s = .fault f →
      (f = .alreadyHalted ∧ s.halted = true) ∨
      (f = .invalidOpcode s.iar (s.mem.word s.iar.toNat) ∧ s.halted = false) ∨
      (∃ a, f = .addressOutOfRange a ∧ (a < 0 ∨ a > 4095) ∧ s.halted = false)

/-- R224, R115: while halted, `step` and `run` fail with AlreadyHalted and change nothing. -/
def Obligations.HaltedMachineRefusesToRun : Prop :=
  ∀ (s : State) (n : Int), s.halted = true → n ≥ 1 →
    hostStep s = (s, .failed .alreadyHalted) ∧ run n s = (s, .failed .alreadyHalted)

/-- R34: in a step only WAIT sets `halted`; both resets clear it; no other host operation changes it; while it is set
`step` and `run` fail with AlreadyHalted. -/
def Obligations.OnlyWaitSetsHalted : Prop :=
  (∀ (s : State) (n : Int), s.halted = true → n ≥ 1 →
    step s = .fault .alreadyHalted ∧ (run n s).2 = .failed .alreadyHalted) ∧
  (∀ s t : State, step s = .next t → (t.halted = true ↔ s.mem.word s.iar.toNat = 0x3000#16)) ∧
  (∀ s : State, (softReset s).halted = false ∧ (hardReset s).halted = false) ∧
  (∀ (s t : State) (a v : Int), writeMemory a v s = .ok t → t.halted = s.halted) ∧
  (∀ (s t : State) (a : Int) (ws : List Int), loadProgram a ws s = .ok t → t.halted = s.halted)

/-- R35: the counters are 0 after a reset and increase by exactly 1 on a step that completes and by 0 on one that
faults; nothing else in a step depends on them. -/
def Obligations.CountersCountCompletedSteps : Prop :=
  (∀ (s t : State) (m n : Nat), step s = .next t →
    step { s with instrCount := m, cycleCount := n } = .next { t with instrCount := m + 1, cycleCount := n + 1 }) ∧
  (∀ (s : State) (m n : Nat) (f : Fault), step s = .fault f →
    step { s with instrCount := m, cycleCount := n } = .fault f) ∧
  (∀ s : State, (softReset s).instrCount = 0 ∧ (softReset s).cycleCount = 0) ∧
  (∀ s t : State, hostStep s = (t, .completed) →
    t.instrCount = s.instrCount + 1 ∧ t.cycleCount = s.cycleCount + 1) ∧
  (∀ (s t : State) (f : Fault), hostStep s = (t, .failed f) →
    t.instrCount = s.instrCount ∧ t.cycleCount = s.cycleCount)

/-- R226, R227: a fault leaves the whole state as it was, so that a second step meets the same fault. -/
def Obligations.FaultHasNoEffect : Prop :=
  ∀ (s t : State) (f : Fault), hostStep s = (t, .failed f) → t = s ∧ hostStep t = (s, .failed f)

/-- Every step keeps the invariant: memory in canonical form and the two counters equal. -/
def Obligations.StepKeepsTheInvariant : Prop :=
  ∀ s t : State, s.Inv → Sys2Proof.Machine.step s = .next t → t.Inv

/-- The invariant holds after reset. -/
def Obligations.ResetHasTheInvariant : Prop := State.reset.Inv

/-- The instruction that `withFetchWord` places is the one the next step runs. -/
def Obligations.PlacedInstructionIsRunNext : Prop :=
  ∀ (s : State) (nbits w : Nat) (i : Instr), s.mem.wf = true → s.iar.toNat < 4095 →
    decodeTableWord nbits w = some i →
    step (s.withFetchWord nbits w) = retire (exec i (s.withFetchWord nbits w))

/-! ### Reset, load and run -/

/-- R260: `reset()`. -/
def Obligations.SoftResetKeepsMemory : Prop :=
  ∀ s : State, softReset s = ⟨s.mem, 0#16, 0#16, 0#12, false, false, false, false, false, 0, 0⟩

/-- R261, R262: `hard_reset()` clears memory too, and gives the state of a new instance. -/
def Obligations.HardResetGivesThePowerOnState : Prop :=
  ∀ s : State, hardReset s = { softReset s with mem := (hardReset s).mem } ∧ hardReset s = State.reset ∧
    ∀ a : Int, inRange a → readMemory a (hardReset s) = .ok 0#16

/-- R54, R264: `load_program` writes the whole span and sets IAR, or fails with an address outside 0..4095. -/
def Obligations.LoadProgramLoadsTheWholeSpan : Prop :=
  ∀ (start : Int) (words : List Int) (s : State), s.mem.wf = true →
    (inRange start → (words.length ≥ 1 → start + words.length - 1 ≤ 4095) →
      ∃ m, loadProgram start words s = .ok { s with mem := m, iar := BitVec.ofInt 12 start } ∧
        Loaded s.mem start words m) ∧
    (¬ inRange start ∨ (words.length ≥ 1 ∧ start + words.length - 1 > 4095) →
      ∃ a, ¬ inRange a ∧ loadProgram start words s = .error (.addressOutOfRange a))

/-- R242, R243: `run` unrolled by one step, its limit, and the call it refuses. That a halted machine refuses a limit
below 1 and does not report AlreadyHalted is the model's choice, log entry 10. -/
def Obligations.RunRepeatsStep : Prop :=
  ∀ (s : State) (n : Int),
    (n < 1 → run n s = (s, .refused (.cycleLimitBelowOne n))) ∧
    (n ≥ 1 → s.halted = true → run n s = (s, .failed .alreadyHalted)) ∧
    (n ≥ 1 → s.halted = false →
      (∀ f, step s = .fault f → run n s = (s, .failed f)) ∧
      (∀ t, step s = .next t → t.halted = true → run n s = (t, .halted)) ∧
      (∀ t, step s = .next t → t.halted = false → n = 1 → run n s = (t, .failed (.cycleLimitExceeded n))) ∧
      (∀ t, step s = .next t → t.halted = false → n > 1 →
        (run n s).1 = (run (n - 1) t).1 ∧ SameEnd (run (n - 1) t).2 (n - 1) (run n s).2 n))

/-- R242: after CycleLimitExceeded a further `run` continues from where it stopped: the two runs together do what one
run with the sum of the limits does. -/
def Obligations.RunContinuesAfterTheLimit : Prop :=
  ∀ (s t : State) (m n : Int), m ≥ 1 → n ≥ 1 → run m s = (t, .failed (.cycleLimitExceeded m)) →
    (run (m + n) s).1 = (run n t).1 ∧ SameEnd (run n t).2 n (run (m + n) s).2 (m + n)

/-- R273: the limit counts instructions: a run that exceeds it has completed exactly that many, any run at most that
many, and the fault carries the limit. -/
def Obligations.LimitCountsInstructions : Prop :=
  ∀ (s : State) (n : Int), n ≥ 1 →
    ((run n s).1.instrCount : Int) ≤ s.instrCount + n ∧
    (∀ k, (run n s).2 = .failed (.cycleLimitExceeded k) → k = n ∧ ((run n s).1.instrCount : Int) = s.instrCount + n)

/-- R245: a run ends normally exactly when it leaves a machine halted that it found running, and then IAR is at a
WAIT. -/
def Obligations.NormalEndIsAtAWait : Prop :=
  ∀ (s : State) (n : Int),
    (endsNormally n s ↔ s.halted = false ∧ (run n s).1.halted = true) ∧
    (endsNormally n s → (run n s).1.mem.word (run n s).1.iar.toNat = 0x3000#16)

/-- A run keeps the invariant, from every state that has it. -/
def Obligations.RunKeepsTheInvariant : Prop :=
  ∀ (s : State) (n : Int), s.Inv → (run n s).1.Inv

/-- R37: a snapshot is a copy of the state, with every getter's value in it. -/
def Obligations.SnapshotIsACopyOfTheState : Prop :=
  (∀ s : State, snapshot s = ⟨s.mem, s.acc, s.ext, s.iar, s.mem.word 1, s.mem.word 2, s.mem.word 3, s.carry, s.overflow,
    s.sign, s.zero, s.instrCount, s.cycleCount, s.halted⟩) ∧
  ∀ s t : State, snapshot s = snapshot t → s = t

/-! ### The assembler -/

/-- R124: a memory reference, LDX and STX among them, whose operand is known emits the one word of its short form where
the operand fits the short field, else the two words of its long form, and its operand is in them; an operand that R124
rejects is OperandOutOfRange. That LDX and STX have the ranges of an indexed operand, and that R124 decides a known
operand's length whatever the policy, is the model's reading, log entry 17. -/
def Obligations.AssembledWordsDecodeToTheStatement : Prop :=
  ∀ (r : Reference) (x : Int) (e : Expr) (syms : Symbols) (policy : LengthPolicy), e.value syms = some x →
    let st := Statement.reference r .auto e
    let len := statementLength policy syms st
    (ShortOperand r x → len = .short ∧ ∃ (w : Word) (disp : BitVec 8), disp.toInt = x ∧ emit syms len st = .ok [w] ∧
      decode [w] = .ok (r.instr (.short disp), [])) ∧
    (¬ ShortOperand r x → AcceptedOperand r x → len = .long ∧ ∃ w0 w1 : Word, emit syms len st = .ok [w0, w1] ∧
      decode [w0, w1] = .ok (r.instr (.long false (trunc16 x)), [])) ∧
    (¬ ShortOperand r x → ¬ AcceptedOperand r x → emit syms len st = .error .operandOutOfRange)

/-- The length of a forward reference is the policy's (D42), and pass 2 emits that length or fails: with UndefinedSymbol
where the label is defined nowhere, with OperandOutOfRange where its value does not fit the length. That the policy is
asked for forward references alone is the model's reading of D42, log entry 17. -/
def Obligations.ForwardReferenceTakesThePolicysLength : Prop :=
  ∀ (r : Reference) (e : Expr) (known syms : Symbols) (policy : LengthPolicy), e.value known = none →
    let st := Statement.reference r .auto e
    let len := statementLength policy known st
    len = policy st known ∧
    (e.value syms = none → emit syms len st = .error .undefinedSymbol) ∧
    (∀ x, e.value syms = some x →
      (len = .short → ShortOperand r x → ∃ (w : Word) (disp : BitVec 8), disp.toInt = x ∧ emit syms len st = .ok [w] ∧
        decode [w] = .ok (r.instr (.short disp), [])) ∧
      (len = .short → ¬ ShortOperand r x → emit syms len st = .error .operandOutOfRange) ∧
      (len = .long → AcceptedOperand r x → ∃ w0 w1 : Word, emit syms len st = .ok [w0, w1] ∧
        decode [w0, w1] = .ok (r.instr (.long false (trunc16 x)), [])) ∧
      (len = .long → ¬ AcceptedOperand r x → emit syms len st = .error .operandOutOfRange))

/-- R123: pass 2 emits as many words as pass 1 advanced the cursor by, whatever the policy, so that the addresses of the
labels are those of the words. -/
def Obligations.PassesAgreeOnLengths : Prop :=
  ∀ (policy : LengthPolicy) (known syms : Symbols) (st : Statement) (ws : List Word) (cursor : Int),
    emit syms (statementLength policy known st) st = .ok ws →
    (∃ n, st = .org n ∧ ws = []) ∨ cursorAfter st known (statementLength policy known st) cursor = cursor + ws.length

/-- R126, R240: `assemble` refuses a start address outside 0..4095, and otherwise answers a Program with that entry or
at least one diagnostic; the Program's words are those that the statements emit, at the addresses of pass 1. -/
def Obligations.AssembleAnswersAProgramOrDiagnostics : Prop :=
  ∀ (hexPrefix : Name) (policy : LengthPolicy) (source : List Char) (start : Int),
    let p1 := sourcePass1 hexPrefix policy source start
    (¬ inRange start → assemble hexPrefix policy source start = .refused (.startAddressOutsideMemory start)) ∧
    (inRange start → (∃ p, assemble hexPrefix policy source start = .program p) ∨
      ∃ es, es ≠ [] ∧ assemble hexPrefix policy source start = .diagnostics es) ∧
    (∀ p, assemble hexPrefix policy source start = .program p → p.entry = start ∧
      (∀ st ∈ p1.placed, ∃ ws, emit p1.symbols st.length st.statement = .ok ws) ∧
      ∀ a w, (a, w) ∈ p.words ↔ ∃ st ∈ p1.placed, ∃ ws, emit p1.symbols st.length st.statement = .ok ws ∧
        ∃ k, ∃ h : k < ws.length, a = st.address + k ∧ w = ws[k])

/-- R125, R129: every problem of a source is among the diagnostics of the one call: a line that is no statement, a second
label of one name, an ORG of a label that pass 1 does not know, a statement that pass 2 cannot emit; each diagnostic
carries its kind, a line, a column and a message. The rules give the aggregation and these four parts. The model's choices
are: by log entry 18, each line and column, that a message (its text a free value) depends on kind, line and column alone,
as every clause through `diagnostic` pins it, that a statement gives at most one diagnostic beside its label's, the first
that is met (`LD 7 nowhere` reports its tag and no UndefinedSymbol), that a wrong statement takes no words in pass 1, and
the kind of a suffix or a tag that R128 does not give (that of a malformed instruction statement is a free value); by log
entry 19, that such an ORG is UndefinedSymbol and that of two labels of one name the first stays. -/
def Obligations.DiagnosticsAreAccumulated : Prop :=
  ∀ (hexPrefix : Name) (policy : LengthPolicy) (source : List Char) (start : Int), inRange start →
    let lines := parseSource hexPrefix source
    let p1 := sourcePass1 hexPrefix policy source start
    let Reports := fun d => ∃ es, assemble hexPrefix policy source start = .diagnostics es ∧ d ∈ es
    (∀ l ∈ lines, ∀ column kind, l.body = .wrong column kind → Reports (diagnostic l.number column kind)) ∧
    (∀ a b l name column, lines = a ++ l :: b → l.label = some (name, column) →
      (∃ l' ∈ a, ∃ c, l'.label = some (name, c)) → Reports (diagnostic l.number column .duplicateLabel)) ∧
    (∀ a b l n column, lines = a ++ l :: b → l.body = .statement column (.org n) →
      n.value (recordLabel l.number l.label (pass1 policy a ⟨start, [], [], []⟩)).symbols = none →
      Reports (diagnostic l.number column .undefinedSymbol)) ∧
    (∀ st ∈ p1.placed, ∀ kind, emit p1.symbols st.length st.statement = .error kind →
      Reports (diagnostic st.line st.column kind)) ∧
    (∀ es, assemble hexPrefix policy source start = .diagnostics es →
      ∀ d ∈ es, ∃ kind line column, d = diagnostic line column kind ∧ d.kind = kind ∧ d.line = line ∧ d.column = column)
end

