-- ==== Sys2Proof/Laws/Assembler.lean ====
section
/-! SUPPORT. For each function of the assembler's passes, once, everything it can answer. -/

namespace Sys2Proof.Machine

/-! ### Operand fields -/

theorem fieldOf_short_eq_ok {b : Bool} {x : Int} {o : Operand} :
    fieldOf b .short x = .ok o ↔ fitsShort b x ∧ o = .short (BitVec.ofInt 8 x) := by
  unfold fieldOf
  by_cases h : fitsShort b x
  · rw [if_pos h, Except.ok.injEq]; exact ⟨fun e => ⟨h, e.symm⟩, fun e => e.2.symm⟩
  · rw [if_neg h]; exact ⟨fun e => (by cases e), fun e => absurd e.1 h⟩

theorem fieldOf_long_eq_ok {b : Bool} {x : Int} {o : Operand} :
    fieldOf b .long x = .ok o ↔ fitsLong b x ∧ o = .long false (trunc16 x) := by
  unfold fieldOf
  by_cases h : fitsLong b x
  · rw [if_pos h, Except.ok.injEq]; exact ⟨fun e => ⟨h, e.symm⟩, fun e => e.2.symm⟩
  · rw [if_neg h]; exact ⟨fun e => (by cases e), fun e => absurd e.1 h⟩

theorem forcedField_eq_ok {b ia : Bool} {x : Int} {o : Operand} :
    forcedField b ia x = .ok o ↔ fitsAddress b x ∧ o = .long ia (trunc16 x) := by
  unfold forcedField
  by_cases h : fitsAddress b x
  · rw [if_pos h, Except.ok.injEq]; exact ⟨fun e => ⟨h, e.symm⟩, fun e => e.2.symm⟩
  · rw [if_neg h]; exact ⟨fun e => (by cases e), fun e => absurd e.1 h⟩

theorem fieldOf_len {b : Bool} {len : Length} {x : Int} {o : Operand} (h : fieldOf b len x = .ok o) :
    o.len = len.words := by
  cases len with
  | short => rw [(fieldOf_short_eq_ok.1 h).2]; rfl
  | long => rw [(fieldOf_long_eq_ok.1 h).2]; rfl

theorem forcedField_len {b ia : Bool} {x : Int} {o : Operand} (h : forcedField b ia x = .ok o) : o.len = 2 := by
  rw [(forcedField_eq_ok.1 h).2]; rfl

/-- A memory reference is as long as its operand field. -/
theorem encode_reference_length (r : Reference) (o : Operand) : (encode (r.instr o)).length = o.len := by
  cases r with
  | indexed op t => cases op <;> cases o <;> rfl
  | move op x => cases op <;> cases o <;> rfl

theorem encode_shift_length {op : ShiftOp} {n : Int} {i : Instr} (h : op.instr n = .ok i) : (encode i).length = 1 := by
  cases op <;> simp only [ShiftOp.instr] at h <;> split at h <;> cases h <;> rfl

theorem resolveExpr_eq_ok {syms : Symbols} {x : Expr} {v : Int} : resolveExpr syms x = .ok v ↔ x.value syms = some v := by
  cases h : x.value syms <;> simp [resolveExpr, h]

theorem except_bind_eq_ok {ε α β : Type} {x : Except ε α} {f : α → Except ε β} {b : β} :
    (x >>= f) = .ok b ↔ ∃ a, x = .ok a ∧ f a = .ok b := by
  cases x <;> simp [bind, Except.bind]

/-! ### Pass 1 -/

@[simp] theorem pass1_nil (policy : LengthPolicy) (p : Pass1) : pass1 policy [] p = p := rfl

@[simp] theorem pass1_cons (policy : LengthPolicy) (l : Line) (ls : List Line) (p : Pass1) :
    pass1 policy (l :: ls) p = pass1 policy ls (pass1Line policy p l) := rfl

theorem pass1_append (policy : LengthPolicy) (a b : List Line) (p : Pass1) :
    pass1 policy (a ++ b) p = pass1 policy b (pass1 policy a p) := List.foldl_append

theorem recordLabel_errors_subset (n : Nat) (label : Option (Name × Nat)) (p : Pass1) :
    p.errors ⊆ (recordLabel n label p).errors := by
  unfold recordLabel
  split
  · exact List.Subset.refl _
  · split <;> simp

theorem placeBody_errors_subset (policy : LengthPolicy) (n : Nat) (body : Body) (p : Pass1) :
    p.errors ⊆ (placeBody policy n body p).errors := by
  cases body <;> simp [placeBody]

/-- A line keeps every diagnostic of the lines before it. -/
theorem pass1Line_errors_subset (policy : LengthPolicy) (p : Pass1) (l : Line) :
    p.errors ⊆ (pass1Line policy p l).errors :=
  List.Subset.trans (recordLabel_errors_subset _ _ _) (placeBody_errors_subset _ _ _ _)

theorem pass1_errors_subset (policy : LengthPolicy) (ls : List Line) (p : Pass1) :
    p.errors ⊆ (pass1 policy ls p).errors := by
  induction ls generalizing p with
  | nil => exact List.Subset.refl _
  | cons l ls ih => exact List.Subset.trans (pass1Line_errors_subset policy p l) (ih _)

/-- A line's place in the whole pass: its own diagnostics stand in the end. -/
theorem pass1Line_errors_subset_pass1 (policy : LengthPolicy) (a b : List Line) (l : Line) (p : Pass1) :
    (pass1Line policy (pass1 policy a p) l).errors ⊆ (pass1 policy (a ++ l :: b) p).errors := by
  rw [pass1_append, pass1_cons]
  exact pass1_errors_subset policy b _

@[simp] theorem placeBody_symbols (policy : LengthPolicy) (n : Nat) (body : Body) (p : Pass1) :
    (placeBody policy n body p).symbols = p.symbols := by
  cases body <;> rfl

/-- A label once recorded stays, with its address. -/
theorem recordLabel_lookup {n : Nat} {label : Option (Name × Nat)} {p : Pass1} {name : Name} {v : Int}
    (h : p.symbols.lookup name = some v) : (recordLabel n label p).symbols.lookup name = some v := by
  unfold recordLabel
  split
  · exact h
  · split
    · exact h
    · simp [List.lookup_append, h]

theorem pass1_lookup {policy : LengthPolicy} {ls : List Line} {p : Pass1} {name : Name} {v : Int}
    (h : p.symbols.lookup name = some v) : (pass1 policy ls p).symbols.lookup name = some v := by
  induction ls generalizing p with
  | nil => exact h
  | cons l ls ih =>
    refine ih (p := pass1Line policy p l) ?_
    simp only [pass1Line, placeBody_symbols]
    exact recordLabel_lookup h

/-- A line's label is known after it. -/
theorem recordLabel_isSome (n : Nat) (name : Name) (column : Nat) (p : Pass1) :
    ∃ v, (recordLabel n (some (name, column)) p).symbols.lookup name = some v := by
  cases h : p.symbols.lookup name with
  | some v => exact ⟨v, recordLabel_lookup h⟩
  | none => exact ⟨p.cursor, by simp [recordLabel, List.lookup_append, h]⟩

/-! ### Pass 2 -/

@[simp] theorem pass2_nil (syms : Symbols) (p : Pass2) : pass2 syms [] p = p := rfl

@[simp] theorem pass2_cons (syms : Symbols) (st : Placed) (sts : List Placed) (p : Pass2) :
    pass2 syms (st :: sts) p = pass2 syms sts (pass2Statement syms p st) := rfl

/-- The diagnostics of pass 2: one for each statement that cannot be emitted. -/
theorem mem_pass2_errors {syms : Symbols} {sts : List Placed} {p : Pass2} {d : AssemblyError} :
    d ∈ (pass2 syms sts p).errors ↔ d ∈ p.errors ∨
      ∃ st ∈ sts, ∃ kind, emit syms st.length st.statement = .error kind ∧ d = diagnostic st.line st.column kind := by
  induction sts generalizing p with
  | nil => simp
  | cons st sts ih =>
    rw [pass2_cons, ih]
    cases h : emit syms st.length st.statement <;> simp [pass2Statement, h, or_assoc]

/-- The words of pass 2: those of each statement that can be emitted, at its address. -/
theorem mem_pass2_words {syms : Symbols} {sts : List Placed} {p : Pass2} {aw : Int × Word} :
    aw ∈ (pass2 syms sts p).words ↔ aw ∈ p.words ∨
      ∃ st ∈ sts, ∃ ws, emit syms st.length st.statement = .ok ws ∧ aw ∈ atAddresses st.address ws := by
  induction sts generalizing p with
  | nil => simp
  | cons st sts ih =>
    rw [pass2_cons, ih]
    cases h : emit syms st.length st.statement <;> simp [pass2Statement, h, or_assoc]

theorem mem_atAddresses {address a : Int} {ws : List Word} {w : Word} :
    (a, w) ∈ atAddresses address ws ↔ ∃ k, ∃ h : k < ws.length, a = address + k ∧ w = ws[k] := by
  induction ws generalizing address with
  | nil => simp [atAddresses]
  | cons v ws ih =>
    rw [atAddresses, List.mem_cons, ih]
    constructor
    · rintro (h | ⟨k, hk, ha, hw⟩)
      · cases h; exact ⟨0, by simp, by simp, rfl⟩
      · exact ⟨k + 1, by simpa using hk, by omega, by simpa using hw⟩
    · rintro ⟨k, hk, ha, hw⟩
      cases k with
      | zero => left; simp_all
      | succ k => right; exact ⟨k, by simpa using hk, by omega, by simpa using hw⟩

/-! ### assemble -/

/-- The three answers of `assemble`. -/
theorem assemble_cases (hexPrefix : Name) (policy : LengthPolicy) (source : List Char) (start : Int) :
    let p1 := sourcePass1 hexPrefix policy source start
    let p2 := pass2 p1.symbols p1.placed ⟨[], []⟩
    (¬ inRange start ∧ assemble hexPrefix policy source start = .refused (.startAddressOutsideMemory start)) ∨
    (inRange start ∧ p1.errors ++ p2.errors = [] ∧ assemble hexPrefix policy source start = .program ⟨p2.words, start⟩) ∨
    (inRange start ∧ p1.errors ++ p2.errors ≠ [] ∧
      assemble hexPrefix policy source start = .diagnostics (p1.errors ++ p2.errors)) := by
  intro p1 p2
  by_cases h : inRange start
  · right
    cases he : p1.errors ++ p2.errors with
    | nil => left; exact ⟨h, rfl, by simp only [assemble, if_pos h]; rw [he]⟩
    | cons e es => right; exact ⟨h, by simp, by simp only [assemble, if_pos h]; rw [he]⟩
  · left; exact ⟨h, by simp only [assemble, if_neg h]⟩

end Sys2Proof.Machine
end

