-- ==== Sys2Proof/Laws/Encoding.lean ====
section
/-! SUPPORT. The fields of an encoded word, and the decode table narrowed to the rows of one operation code and format. -/

namespace Sys2Proof

/-! ### Fields of a short word -/

variable (op : BitVec 5) (t : BitVec 2) (low : BitVec 8) (ia : Bool) (mod : BitVec 7)

theorem getLsbD_shortWord (k : Nat) : (shortWord op t low).getLsbD k =
    if k < 8 then low.getLsbD k else if k < 10 then t.getLsbD (k - 8) else if k < 11 then false
    else op.getLsbD (k - 11) := by
  simp only [shortWord, BitVec.getLsbD_append]
  by_cases h8 : k < 8
  · simp [h8]
  by_cases h10 : k < 10
  · simp [h8, h10, show k - 8 < 2 by omega]
  by_cases h11 : k < 11
  · have : k = 10 := by omega
    subst this
    simp
  · have h1 : ¬ k - 8 < 2 := by omega
    have h2 : k - 8 - 2 = k - 10 := by omega
    have h3 : ¬ k - 10 < 1 := by omega
    have h4 : k - 10 - 1 = k - 11 := by omega
    simp [h8, h10, h11, h1, h2, h3, h4]

theorem dispField_shortWord : dispField (shortWord op t low) = low := by
  refine BitVec.eq_of_getLsbD_eq fun i hi => ?_
  rw [dispField, BitVec.getLsbD_extractLsb', getLsbD_shortWord]
  simp [hi]

theorem countField_shortWord (n : BitVec 6) : countField (shortWord op t (0#2 ++ n)) = n := by
  refine BitVec.eq_of_getLsbD_eq fun i hi => ?_
  have h8 : i < 8 := by omega
  rw [countField, BitVec.getLsbD_extractLsb', getLsbD_shortWord, BitVec.getLsbD_append]
  simp [hi, h8]

theorem tagField_shortWord (t : Tag) : tagField (shortWord op t.bits low) = t := by
  rw [tagField, getLsbD_shortWord, getLsbD_shortWord]
  rcases t with _ | (_ | _ | _) <;> rfl

theorem condField_shortWord (c : Conditions) : condField (shortWord op t (0#2 ++ c.bits)) = c := by
  simp only [condField, getLsbD_shortWord, BitVec.getLsbD_append, Conditions.bits]
  simp

/-! ### Fields of a long first word -/

theorem getLsbD_longWord (k : Nat) : (longWord op t ia mod).getLsbD k =
    if k < 7 then mod.getLsbD k else if k < 8 then ia else if k < 10 then t.getLsbD (k - 8)
    else if k < 11 then true else op.getLsbD (k - 11) := by
  simp only [longWord, BitVec.getLsbD_append]
  by_cases h7 : k < 7
  · simp [h7]
  by_cases h8 : k < 8
  · have : k = 7 := by omega
    subst this
    simp
  by_cases h10 : k < 10
  · have h1 : ¬ k - 7 < 1 := by omega
    have h2 : k - 7 - 1 < 2 := by omega
    have h3 : k - 7 - 1 = k - 8 := by omega
    simp [h7, h8, h10, h1, h3, show k - 8 < 2 by omega]
  by_cases h11 : k < 11
  · have : k = 10 := by omega
    subst this
    simp
  · have h1 : ¬ k - 7 < 1 := by omega
    have h2 : k - 7 - 1 = k - 8 := by omega
    have h3 : ¬ k - 8 < 2 := by omega
    have h4 : k - 8 - 2 = k - 10 := by omega
    have h5 : ¬ k - 10 < 1 := by omega
    have h6 : k - 10 - 1 = k - 11 := by omega
    simp [h7, h8, h10, h11, h1, h2, h3, h4, h5, h6]

theorem tagField_longWord (t : Tag) : tagField (longWord op t.bits ia mod) = t := by
  rw [tagField, getLsbD_longWord, getLsbD_longWord]
  rcases t with _ | (_ | _ | _) <;> rfl

theorem iaField_longWord : iaField (longWord op t ia mod) = ia := by
  rw [iaField, getLsbD_longWord]; rfl

theorem condField_longWord (c : Conditions) : condField (longWord op t ia (0#1 ++ c.bits)) = c := by
  simp only [condField, getLsbD_longWord, BitVec.getLsbD_append, Conditions.bits]
  simp

/-! ### Narrowing the table -/

/-- OP and F of a word, in place. -/
def opFormat (w : Word) : Word := w &&& 0xFC00#16

/-- Every mask of the table covers OP and F, so a row a word meets has the word's OP and F. -/
theorem opFormat_of_holds : ∀ r ∈ decodeTable, ∀ w, r.holds w = true → opFormat r.pattern = opFormat w := by
  have hm : ∀ r ∈ decodeTable, r.mask &&& 0xFC00#16 = 0xFC00#16 := by decide
  intro r hr w h
  simp only [Row.holds, Bool.and_eq_true, beq_iff_eq] at h
  rw [opFormat, opFormat, ← h.1, BitVec.and_assoc, hm r hr]

/-- Decoding looks only at the rows of the word's OP and F. -/
theorem decodeFirst_eq_of_opFormat {w key : Word} (h : opFormat w = key) :
    decodeFirst w = match (decodeTable.filter fun r => opFormat r.pattern == key).find? (·.holds w) with
      | some r => r.build w
      | none => .invalid := by
  have hf : decodeTable.find? (·.holds w) = (decodeTable.filter fun r => opFormat r.pattern == key).find? (·.holds w) := by
    have aux : ∀ l : List Row, (∀ r ∈ l, r.holds w = true → opFormat r.pattern = opFormat w) →
        l.find? (·.holds w) = (l.filter fun r => opFormat r.pattern == key).find? (·.holds w) := by
      intro l
      induction l with
      | nil => intro _; rfl
      | cons r l ih =>
        intro hl
        have ih' := ih fun r hr => hl r (List.mem_cons_of_mem _ hr)
        by_cases hk : opFormat r.pattern = key
        · rw [List.filter_cons_of_pos (by simpa using hk), List.find?_cons, List.find?_cons, ih']
        · have hr : r.holds w = false := by
            by_contra hc
            exact hk (by rw [hl r List.mem_cons_self (by simpa using hc), h])
          rw [List.filter_cons_of_neg (by simpa using hk), List.find?_cons, hr, ih']
    exact aux decodeTable fun r hr => opFormat_of_holds r hr w
  unfold decodeFirst
  exact congrArg (fun o : Option Row => match o with | some r => r.build w | none => .invalid) hf

end Sys2Proof
end

