-- ==== Sys2Proof/Laws/Memory.lean ====
section
/-! SUPPORT. What the memory operations do: read after write, the canonical form, and that equal contents are equal
data. -/

namespace Sys2Proof.Machine

/-! ### Octets -/

theorem Memory.octet_eq_zero_of_lt (m : Memory) {low i : Nat} (h : Memory.wfFrom low m = true) (hi : i < low) :
    Memory.octet m i = 0#8 := by
  induction m generalizing low with
  | nil => rfl
  | cons e m ih =>
    obtain ⟨j, c⟩ := e
    simp only [Memory.wfFrom, Bool.and_eq_true, decide_eq_true_eq] at h
    have hne : j ≠ i := by omega
    simp only [Memory.octet, hne, if_false]
    exact ih h.2 (by omega)

theorem Memory.octet_setOctet_same (m : Memory) (k : Nat) (b : BitVec 8) {low : Nat} (h : Memory.wfFrom low m = true) :
    Memory.octet (Memory.setOctet m k b) k = b := by
  induction m generalizing low with
  | nil => by_cases hb : b = 0#8 <;> simp [Memory.setOctet, Memory.octet, hb]
  | cons e m ih =>
    obtain ⟨j, c⟩ := e
    simp only [Memory.wfFrom, Bool.and_eq_true, decide_eq_true_eq] at h
    simp only [Memory.setOctet]
    split
    · next hlt =>
      split
      · next hb =>
        have hne : j ≠ k := by omega
        simp only [Memory.octet, hne, if_false, hb]
        exact Memory.octet_eq_zero_of_lt m h.2 (by omega)
      · simp [Memory.octet]
    · split
      · next hk =>
        subst hk
        split
        · next hb => rw [hb]; exact Memory.octet_eq_zero_of_lt m h.2 (by omega)
        · simp [Memory.octet]
      · next hk =>
        have hne : j ≠ k := fun e => hk e.symm
        simp only [Memory.octet, hne, if_false]
        exact ih h.2

theorem Memory.octet_setOctet_other (m : Memory) {k i : Nat} (b : BitVec 8) (hne : i ≠ k) :
    Memory.octet (Memory.setOctet m k b) i = Memory.octet m i := by
  have hki : k ≠ i := fun e => hne e.symm
  induction m with
  | nil => by_cases hb : b = 0#8 <;> simp [Memory.setOctet, Memory.octet, hb, hki]
  | cons e m ih =>
    obtain ⟨j, c⟩ := e
    simp only [Memory.setOctet]
    split
    · split <;> simp [Memory.octet, hki]
    · split
      · next hk => subst hk; split <;> simp [Memory.octet, hki]
      · simp [Memory.octet, ih]

theorem Memory.wfFrom_mono {m : Memory} {low low' : Nat} (h : Memory.wfFrom low m = true) (hl : low' ≤ low) :
    Memory.wfFrom low' m = true := by
  cases m with
  | nil => rfl
  | cons e m =>
    obtain ⟨j, c⟩ := e
    simp only [Memory.wfFrom, Bool.and_eq_true, decide_eq_true_eq] at h ⊢
    exact ⟨⟨⟨by omega, h.1.1.2⟩, h.1.2⟩, h.2⟩

theorem Memory.wfFrom_setOctet {m : Memory} {low k : Nat} (b : BitVec 8) (h : Memory.wfFrom low m = true)
    (hlow : low ≤ k) (hk : k < 2 * Config.memWords) : Memory.wfFrom low (Memory.setOctet m k b) = true := by
  induction m generalizing low with
  | nil => by_cases hb : b = 0#8 <;> simp [Memory.setOctet, Memory.wfFrom, hb, hlow, hk]
  | cons e m ih =>
    obtain ⟨j, c⟩ := e
    have h' := h
    simp only [Memory.wfFrom, Bool.and_eq_true, decide_eq_true_eq, bne_iff_ne] at h
    obtain ⟨⟨⟨hj, hjb⟩, hc⟩, hm⟩ := h
    simp only [Memory.setOctet]
    split
    · split
      · exact h'
      · simp only [Memory.wfFrom, Bool.and_eq_true, decide_eq_true_eq, bne_iff_ne]
        refine ⟨⟨⟨hlow, hk⟩, by assumption⟩, ⟨⟨by omega, hjb⟩, hc⟩, hm⟩
    · split
      · next he =>
        subst he
        split
        · exact Memory.wfFrom_mono hm (by omega)
        · simp only [Memory.wfFrom, Bool.and_eq_true, decide_eq_true_eq, bne_iff_ne]
          exact ⟨⟨⟨hlow, hk⟩, by assumption⟩, hm⟩
      · simp only [Memory.wfFrom, Bool.and_eq_true, decide_eq_true_eq, bne_iff_ne]
        exact ⟨⟨⟨hj, hjb⟩, hc⟩, ih hm (by omega)⟩

theorem Memory.octet_eq_zero_of_ge (m : Memory) {low i : Nat} (h : Memory.wfFrom low m = true)
    (hi : 2 * Config.memWords ≤ i) : Memory.octet m i = 0#8 := by
  induction m generalizing low with
  | nil => rfl
  | cons e m ih =>
    obtain ⟨j, c⟩ := e
    simp only [Memory.wfFrom, Bool.and_eq_true, decide_eq_true_eq] at h
    have hne : j ≠ i := by omega
    simp only [Memory.octet, hne, if_false]
    exact ih h.2

/-- Two canonical memories with the same octets are the same list. -/
theorem Memory.eq_of_octets {m m' : Memory} {low : Nat} (h : Memory.wfFrom low m = true)
    (h' : Memory.wfFrom low m' = true) (heq : ∀ i, Memory.octet m i = Memory.octet m' i) : m = m' := by
  induction m generalizing low m' with
  | nil =>
    cases m' with
    | nil => rfl
    | cons e m' =>
      obtain ⟨j, c⟩ := e
      simp only [Memory.wfFrom, Bool.and_eq_true, bne_iff_ne] at h'
      have := heq j
      simp only [Memory.octet, if_true] at this
      exact absurd this.symm h'.1.2
  | cons e m ih =>
    obtain ⟨j, c⟩ := e
    cases m' with
    | nil =>
      simp only [Memory.wfFrom, Bool.and_eq_true, bne_iff_ne] at h
      have := heq j
      simp only [Memory.octet, if_true] at this
      exact absurd this h.1.2
    | cons e' m' =>
      obtain ⟨j', c'⟩ := e'
      simp only [Memory.wfFrom, Bool.and_eq_true, decide_eq_true_eq, bne_iff_ne] at h h'
      obtain ⟨⟨⟨-, -⟩, hc⟩, hm⟩ := h
      obtain ⟨⟨⟨-, -⟩, hc'⟩, hm'⟩ := h'
      have hjj : j = j' := by
        by_contra hne
        rcases Nat.lt_or_gt_of_ne hne with hlt | hlt
        · have := heq j
          have hne' : j' ≠ j := fun e => hne e.symm
          simp only [Memory.octet, if_true, hne', if_false, Memory.octet_eq_zero_of_lt m' hm' (by omega : j < j' + 1)] at this
          exact hc this
        · have := heq j'
          simp only [Memory.octet, if_true, hne, if_false, Memory.octet_eq_zero_of_lt m hm (by omega : j' < j + 1)] at this
          exact hc' this.symm
      subst hjj
      have hcc : c = c' := by simpa [Memory.octet] using heq j
      subst hcc
      rw [ih hm hm']
      intro i
      by_cases hi : j = i
      · subst hi
        rw [Memory.octet_eq_zero_of_lt m hm (by omega), Memory.octet_eq_zero_of_lt m' hm' (by omega)]
      · simpa [Memory.octet, hi] using heq i

/-! ### Words -/

theorem octets_append (v : Word) : v.extractLsb' 8 8 ++ v.extractLsb' 0 8 = v := by
  refine BitVec.eq_of_getLsbD_eq fun i hi => ?_
  rw [BitVec.getLsbD_append, BitVec.getLsbD_extractLsb', BitVec.getLsbD_extractLsb']
  by_cases h : i < 8
  · simp [h]
  · have h8 : i - 8 < 8 := by omega
    have hi' : 8 + (i - 8) = i := by omega
    simp [h, h8, hi']

theorem extract_high (a b : BitVec 8) : (a ++ b).extractLsb' 8 8 = a := by
  refine BitVec.eq_of_getLsbD_eq fun i hi => ?_
  rw [BitVec.getLsbD_extractLsb', BitVec.getLsbD_append]
  simp [hi]

theorem extract_low (a b : BitVec 8) : (a ++ b).extractLsb' 0 8 = b := by
  refine BitVec.eq_of_getLsbD_eq fun i hi => ?_
  rw [BitVec.getLsbD_extractLsb', BitVec.getLsbD_append]
  simp [hi]

theorem Memory.word_setWord_same {m : Memory} (h : m.wf = true) {a : Nat} (ha : a < Config.memWords) (v : Word) :
    (m.setWord a v).word a = v := by
  have h1 : Memory.wfFrom 0 (Memory.setOctet m (2 * a) (v.extractLsb' 8 8)) = true :=
    Memory.wfFrom_setOctet _ h (by omega) (by omega)
  simp only [Memory.word, Memory.setWord]
  rw [Memory.octet_setOctet_other _ _ (by omega), Memory.octet_setOctet_same _ _ _ h,
    Memory.octet_setOctet_same _ _ _ h1]
  exact octets_append v

theorem Memory.word_setWord_other (m : Memory) {a b : Nat} (hne : b ≠ a) (v : Word) :
    (m.setWord a v).word b = m.word b := by
  simp only [Memory.word, Memory.setWord]
  rw [Memory.octet_setOctet_other _ _ (by omega), Memory.octet_setOctet_other _ _ (by omega),
    Memory.octet_setOctet_other _ _ (by omega), Memory.octet_setOctet_other _ _ (by omega)]

theorem Memory.wf_setWord {m : Memory} (h : m.wf = true) {a : Nat} (ha : a < Config.memWords) (v : Word) :
    (m.setWord a v).wf = true :=
  Memory.wfFrom_setOctet _ (Memory.wfFrom_setOctet _ h (by omega) (by omega)) (by omega) (by omega)

theorem Memory.wf_nil : Memory.wf [] = true := rfl

theorem Memory.word_nil (a : Nat) : Memory.word [] a = 0#16 := by simp [Memory.word, Memory.octet]

/-- The octets of a cell, from the word that holds it. -/
theorem Memory.octet_of_word (m : Memory) (i : Nat) :
    Memory.octet m i = (m.word (i / 2)).extractLsb' (if i % 2 = 0 then 8 else 0) 8 := by
  split
  · next h =>
    have hi : 2 * (i / 2) = i := by omega
    rw [Memory.word, extract_high, hi]
  · next h =>
    have hi : 2 * (i / 2) + 1 = i := by omega
    rw [Memory.word, extract_low, hi]

/-- Canonical memories with the same words at 0 to 4095 are the same data, so the cell form adds nothing. -/
theorem Memory.eq_of_words {m m' : Memory} (h : m.wf = true) (h' : m'.wf = true)
    (heq : ∀ a, a < Config.memWords → m.word a = m'.word a) : m = m' := by
  refine Memory.eq_of_octets h h' fun i => ?_
  by_cases hi : i < 2 * Config.memWords
  · rw [Memory.octet_of_word m, Memory.octet_of_word m', heq _ (by omega)]
  · rw [Memory.octet_eq_zero_of_ge m h (by omega), Memory.octet_eq_zero_of_ge m' h' (by omega)]

/-! ### The operations that write memory keep the canonical form -/

theorem XReg.address_lt (x : XReg) : XReg.address x < Config.memWords := by cases x <;> decide

theorem writeXr_wf {m : Memory} (h : m.wf = true) (x : XReg) (v : Word) : (writeXr m x v).wf = true :=
  Memory.wf_setWord h (XReg.address_lt x) v

theorem memWrite_wf {m m' : Memory} {addr : Int} {v : Word} (h : m.wf = true) (hw : memWrite m addr v = .ok m') :
    m'.wf = true := by
  unfold memWrite at hw
  split at hw
  · next hr =>
    cases hw
    have : addr.toNat < Config.memWords := by unfold Config.memWords; omega
    exact Memory.wf_setWord h this v
  · cases hw

theorem storeWords_wf {data : List Int} {m : Memory} {start : Nat} (h : m.wf = true)
    (hs : start + data.length ≤ Config.memWords) : (storeWords m start data).wf = true := by
  induction data generalizing m start with
  | nil => exact h
  | cons d data ih =>
    simp only [List.length_cons] at hs
    exact ih (Memory.wf_setWord h (by omega) _) (by omega)

theorem loadWords_wf {m m' : Memory} {start : Int} {data : List Int} (h : m.wf = true)
    (hl : loadWords start data m = .ok m') : m'.wf = true := by
  unfold loadWords at hl
  split at hl
  · next hr => cases hl; exact storeWords_wf h (by omega)
  · cases hl

end Sys2Proof.Machine
end

