-- ==== Sys2Proof/Laws/State.lean ====
section
/-! SUPPORT. One lemma per field per update of the state, so that no proof unfolds a record update. -/

namespace Sys2Proof.Machine

variable (s : State)

/-! ### `setMem` -/

@[simp] theorem State.setMem_mem (m : Memory) : (s.setMem m).mem = m := rfl
@[simp] theorem State.setMem_acc (m : Memory) : (s.setMem m).acc = s.acc := rfl
@[simp] theorem State.setMem_ext (m : Memory) : (s.setMem m).ext = s.ext := rfl
@[simp] theorem State.setMem_iar (m : Memory) : (s.setMem m).iar = s.iar := rfl
@[simp] theorem State.setMem_carry (m : Memory) : (s.setMem m).carry = s.carry := rfl
@[simp] theorem State.setMem_overflow (m : Memory) : (s.setMem m).overflow = s.overflow := rfl
@[simp] theorem State.setMem_sign (m : Memory) : (s.setMem m).sign = s.sign := rfl
@[simp] theorem State.setMem_zero (m : Memory) : (s.setMem m).zero = s.zero := rfl
@[simp] theorem State.setMem_halted (m : Memory) : (s.setMem m).halted = s.halted := rfl
@[simp] theorem State.setMem_instrCount (m : Memory) : (s.setMem m).instrCount = s.instrCount := rfl
@[simp] theorem State.setMem_cycleCount (m : Memory) : (s.setMem m).cycleCount = s.cycleCount := rfl

/-! ### `setAcc` -/

@[simp] theorem State.setAcc_mem (v : Word) : (s.setAcc v).mem = s.mem := rfl
@[simp] theorem State.setAcc_acc (v : Word) : (s.setAcc v).acc = v := rfl
@[simp] theorem State.setAcc_ext (v : Word) : (s.setAcc v).ext = s.ext := rfl
@[simp] theorem State.setAcc_iar (v : Word) : (s.setAcc v).iar = s.iar := rfl
@[simp] theorem State.setAcc_carry (v : Word) : (s.setAcc v).carry = s.carry := rfl
@[simp] theorem State.setAcc_overflow (v : Word) : (s.setAcc v).overflow = s.overflow := rfl
@[simp] theorem State.setAcc_sign (v : Word) : (s.setAcc v).sign = s.sign := rfl
@[simp] theorem State.setAcc_zero (v : Word) : (s.setAcc v).zero = s.zero := rfl
@[simp] theorem State.setAcc_halted (v : Word) : (s.setAcc v).halted = s.halted := rfl
@[simp] theorem State.setAcc_instrCount (v : Word) : (s.setAcc v).instrCount = s.instrCount := rfl
@[simp] theorem State.setAcc_cycleCount (v : Word) : (s.setAcc v).cycleCount = s.cycleCount := rfl

/-! ### `setIar` -/

@[simp] theorem State.setIar_mem (a : BitVec 12) : (s.setIar a).mem = s.mem := rfl
@[simp] theorem State.setIar_acc (a : BitVec 12) : (s.setIar a).acc = s.acc := rfl
@[simp] theorem State.setIar_ext (a : BitVec 12) : (s.setIar a).ext = s.ext := rfl
@[simp] theorem State.setIar_iar (a : BitVec 12) : (s.setIar a).iar = a := rfl
@[simp] theorem State.setIar_carry (a : BitVec 12) : (s.setIar a).carry = s.carry := rfl
@[simp] theorem State.setIar_overflow (a : BitVec 12) : (s.setIar a).overflow = s.overflow := rfl
@[simp] theorem State.setIar_sign (a : BitVec 12) : (s.setIar a).sign = s.sign := rfl
@[simp] theorem State.setIar_zero (a : BitVec 12) : (s.setIar a).zero = s.zero := rfl
@[simp] theorem State.setIar_halted (a : BitVec 12) : (s.setIar a).halted = s.halted := rfl
@[simp] theorem State.setIar_instrCount (a : BitVec 12) : (s.setIar a).instrCount = s.instrCount := rfl
@[simp] theorem State.setIar_cycleCount (a : BitVec 12) : (s.setIar a).cycleCount = s.cycleCount := rfl

/-! ### `setCarry` -/

@[simp] theorem State.setCarry_mem (b : Bool) : (s.setCarry b).mem = s.mem := rfl
@[simp] theorem State.setCarry_acc (b : Bool) : (s.setCarry b).acc = s.acc := rfl
@[simp] theorem State.setCarry_ext (b : Bool) : (s.setCarry b).ext = s.ext := rfl
@[simp] theorem State.setCarry_iar (b : Bool) : (s.setCarry b).iar = s.iar := rfl
@[simp] theorem State.setCarry_carry (b : Bool) : (s.setCarry b).carry = b := rfl
@[simp] theorem State.setCarry_overflow (b : Bool) : (s.setCarry b).overflow = s.overflow := rfl
@[simp] theorem State.setCarry_sign (b : Bool) : (s.setCarry b).sign = s.sign := rfl
@[simp] theorem State.setCarry_zero (b : Bool) : (s.setCarry b).zero = s.zero := rfl
@[simp] theorem State.setCarry_halted (b : Bool) : (s.setCarry b).halted = s.halted := rfl
@[simp] theorem State.setCarry_instrCount (b : Bool) : (s.setCarry b).instrCount = s.instrCount := rfl
@[simp] theorem State.setCarry_cycleCount (b : Bool) : (s.setCarry b).cycleCount = s.cycleCount := rfl

/-! ### `setOverflow` -/

@[simp] theorem State.setOverflow_mem (b : Bool) : (s.setOverflow b).mem = s.mem := rfl
@[simp] theorem State.setOverflow_acc (b : Bool) : (s.setOverflow b).acc = s.acc := rfl
@[simp] theorem State.setOverflow_ext (b : Bool) : (s.setOverflow b).ext = s.ext := rfl
@[simp] theorem State.setOverflow_iar (b : Bool) : (s.setOverflow b).iar = s.iar := rfl
@[simp] theorem State.setOverflow_carry (b : Bool) : (s.setOverflow b).carry = s.carry := rfl
@[simp] theorem State.setOverflow_overflow (b : Bool) : (s.setOverflow b).overflow = b := rfl
@[simp] theorem State.setOverflow_sign (b : Bool) : (s.setOverflow b).sign = s.sign := rfl
@[simp] theorem State.setOverflow_zero (b : Bool) : (s.setOverflow b).zero = s.zero := rfl
@[simp] theorem State.setOverflow_halted (b : Bool) : (s.setOverflow b).halted = s.halted := rfl
@[simp] theorem State.setOverflow_instrCount (b : Bool) : (s.setOverflow b).instrCount = s.instrCount := rfl
@[simp] theorem State.setOverflow_cycleCount (b : Bool) : (s.setOverflow b).cycleCount = s.cycleCount := rfl

/-! ### `setSignZero` -/

@[simp] theorem State.setSignZero_mem (n z : Bool) : (s.setSignZero n z).mem = s.mem := rfl
@[simp] theorem State.setSignZero_acc (n z : Bool) : (s.setSignZero n z).acc = s.acc := rfl
@[simp] theorem State.setSignZero_ext (n z : Bool) : (s.setSignZero n z).ext = s.ext := rfl
@[simp] theorem State.setSignZero_iar (n z : Bool) : (s.setSignZero n z).iar = s.iar := rfl
@[simp] theorem State.setSignZero_carry (n z : Bool) : (s.setSignZero n z).carry = s.carry := rfl
@[simp] theorem State.setSignZero_overflow (n z : Bool) : (s.setSignZero n z).overflow = s.overflow := rfl
@[simp] theorem State.setSignZero_sign (n z : Bool) : (s.setSignZero n z).sign = n := rfl
@[simp] theorem State.setSignZero_zero (n z : Bool) : (s.setSignZero n z).zero = z := rfl
@[simp] theorem State.setSignZero_halted (n z : Bool) : (s.setSignZero n z).halted = s.halted := rfl
@[simp] theorem State.setSignZero_instrCount (n z : Bool) : (s.setSignZero n z).instrCount = s.instrCount := rfl
@[simp] theorem State.setSignZero_cycleCount (n z : Bool) : (s.setSignZero n z).cycleCount = s.cycleCount := rfl

/-! ### `setHalted` -/

@[simp] theorem State.setHalted_mem (b : Bool) : (s.setHalted b).mem = s.mem := rfl
@[simp] theorem State.setHalted_acc (b : Bool) : (s.setHalted b).acc = s.acc := rfl
@[simp] theorem State.setHalted_ext (b : Bool) : (s.setHalted b).ext = s.ext := rfl
@[simp] theorem State.setHalted_iar (b : Bool) : (s.setHalted b).iar = s.iar := rfl
@[simp] theorem State.setHalted_carry (b : Bool) : (s.setHalted b).carry = s.carry := rfl
@[simp] theorem State.setHalted_overflow (b : Bool) : (s.setHalted b).overflow = s.overflow := rfl
@[simp] theorem State.setHalted_sign (b : Bool) : (s.setHalted b).sign = s.sign := rfl
@[simp] theorem State.setHalted_zero (b : Bool) : (s.setHalted b).zero = s.zero := rfl
@[simp] theorem State.setHalted_halted (b : Bool) : (s.setHalted b).halted = b := rfl
@[simp] theorem State.setHalted_instrCount (b : Bool) : (s.setHalted b).instrCount = s.instrCount := rfl
@[simp] theorem State.setHalted_cycleCount (b : Bool) : (s.setHalted b).cycleCount = s.cycleCount := rfl

/-! ### `countStep` -/

@[simp] theorem State.countStep_mem : (s.countStep).mem = s.mem := rfl
@[simp] theorem State.countStep_acc : (s.countStep).acc = s.acc := rfl
@[simp] theorem State.countStep_ext : (s.countStep).ext = s.ext := rfl
@[simp] theorem State.countStep_iar : (s.countStep).iar = s.iar := rfl
@[simp] theorem State.countStep_carry : (s.countStep).carry = s.carry := rfl
@[simp] theorem State.countStep_overflow : (s.countStep).overflow = s.overflow := rfl
@[simp] theorem State.countStep_sign : (s.countStep).sign = s.sign := rfl
@[simp] theorem State.countStep_zero : (s.countStep).zero = s.zero := rfl
@[simp] theorem State.countStep_halted : (s.countStep).halted = s.halted := rfl
@[simp] theorem State.countStep_instrCount : (s.countStep).instrCount = s.instrCount + 1 := rfl
@[simp] theorem State.countStep_cycleCount : (s.countStep).cycleCount = s.cycleCount + 1 := rfl

/-! ### `defineSignZero` -/

@[simp] theorem State.defineSignZero_mem (r : Word) : (s.defineSignZero r).mem = s.mem := rfl
@[simp] theorem State.defineSignZero_acc (r : Word) : (s.defineSignZero r).acc = s.acc := rfl
@[simp] theorem State.defineSignZero_ext (r : Word) : (s.defineSignZero r).ext = s.ext := rfl
@[simp] theorem State.defineSignZero_iar (r : Word) : (s.defineSignZero r).iar = s.iar := rfl
@[simp] theorem State.defineSignZero_carry (r : Word) : (s.defineSignZero r).carry = s.carry := rfl
@[simp] theorem State.defineSignZero_overflow (r : Word) : (s.defineSignZero r).overflow = s.overflow := rfl
@[simp] theorem State.defineSignZero_sign (r : Word) : (s.defineSignZero r).sign = r.getLsbD 15 := rfl
@[simp] theorem State.defineSignZero_zero (r : Word) : (s.defineSignZero r).zero = (r == 0#16) := rfl
@[simp] theorem State.defineSignZero_halted (r : Word) : (s.defineSignZero r).halted = s.halted := rfl
@[simp] theorem State.defineSignZero_instrCount (r : Word) : (s.defineSignZero r).instrCount = s.instrCount := rfl
@[simp] theorem State.defineSignZero_cycleCount (r : Word) : (s.defineSignZero r).cycleCount = s.cycleCount := rfl

end Sys2Proof.Machine
end

