-- ==== Sys2Proof/Laws/Ops.lean ====
section
/-! SUPPORT. For each shared operation, once, everything it can answer. -/

namespace Sys2Proof.Machine

/-! ### Sequencing -/

theorem bind_eq_ok {α β : Type} {x : Except Fault α} {f : α → Except Fault β} {b : β} :
    (x >>= f) = .ok b ↔ ∃ a, x = .ok a ∧ f a = .ok b := by
  cases x <;> simp [bind, Except.bind]

@[simp] theorem bind_ok {α β : Type} (a : α) (f : α → Except Fault β) : ((.ok a : Except Fault α) >>= f) = f a := rfl

@[simp] theorem bind_error {α β : Type} (e : Fault) (f : α → Except Fault β) :
    ((.error e : Except Fault α) >>= f) = .error e := rfl

@[simp] theorem finish_ok (s : State) : finish (.ok s) = .next s := rfl

@[simp] theorem finish_error (f : Fault) : finish (.error f) = .fault f := rfl

theorem finish_eq_next {r : Except Fault State} {t : State} : finish r = .next t ↔ r = .ok t := by
  cases r <;> simp [finish]

theorem finish_eq_fault {r : Except Fault State} {f : Fault} : finish r = .fault f ↔ r = .error f := by
  cases r <;> simp [finish]

theorem finish_ne_refused {r : Except Fault State} {q : Refusal} : finish r ≠ .refused q := by
  cases r <;> simp [finish]

@[simp] theorem retire_next (s : State) : retire (.next s) = .next s.countStep := rfl

@[simp] theorem retire_fault (f : Fault) : retire (.fault f) = .fault f := rfl

theorem retire_eq_next {r : Result} {t : State} : retire r = .next t ↔ ∃ u, r = .next u ∧ t = u.countStep := by
  cases r <;> simp [retire, eq_comm]

/-! ### Memory accesses -/

theorem memRead_in {addr : Int} (m : Memory) (h : inRange addr) : memRead m addr = .ok (m.word addr.toNat) :=
  if_pos h

theorem memRead_out {addr : Int} (m : Memory) (h : ¬ inRange addr) : memRead m addr = .error (.addressOutOfRange addr) :=
  if_neg h

theorem memRead_eq_ok {m : Memory} {addr : Int} {v : Word} :
    memRead m addr = .ok v ↔ inRange addr ∧ m.word addr.toNat = v := by
  by_cases h : inRange addr
  · rw [memRead_in m h, Except.ok.injEq]; exact ⟨fun e => ⟨h, e⟩, fun e => e.2⟩
  · rw [memRead_out m h]; exact ⟨fun e => (by cases e), fun e => absurd e.1 h⟩

theorem memWrite_in {addr : Int} (m : Memory) (v : Word) (h : inRange addr) :
    memWrite m addr v = .ok (m.setWord addr.toNat v) := if_pos h

theorem memWrite_out {addr : Int} (m : Memory) (v : Word) (h : ¬ inRange addr) :
    memWrite m addr v = .error (.addressOutOfRange addr) := if_neg h

theorem memWrite_eq_ok {m m' : Memory} {addr : Int} {v : Word} :
    memWrite m addr v = .ok m' ↔ inRange addr ∧ m.setWord addr.toNat v = m' := by
  by_cases h : inRange addr
  · rw [memWrite_in m v h, Except.ok.injEq]; exact ⟨fun e => ⟨h, e⟩, fun e => e.2⟩
  · rw [memWrite_out m v h]; exact ⟨fun e => (by cases e), fun e => absurd e.1 h⟩

/-- A write of a word is read back there, and every other address reads as before. -/
theorem memRead_setWord {m : Memory} (hm : m.wf = true) {addr : Int} (h : inRange addr) (v : Word) (b : Int) :
    memRead (m.setWord addr.toNat v) b = if b = addr then .ok v else memRead m b := by
  by_cases hb : inRange b
  · rw [memRead_in _ hb, memRead_in _ hb]
    split
    · next he =>
      have hlt : addr.toNat < Config.memWords := by unfold Config.memWords; omega
      rw [he, Memory.word_setWord_same hm hlt]
    · next he => rw [Memory.word_setWord_other _ (by omega)]
  · have hne : b ≠ addr := fun e => hb (e ▸ h)
    rw [memRead_out _ hb, memRead_out _ hb, if_neg hne]

/-! ### IAR -/

theorem writeIar_in {v : Int} (s : State) (h : inRange v) : writeIar v s = .ok (s.setIar (BitVec.ofInt 12 v)) := if_pos h

theorem writeIar_out {v : Int} (s : State) (h : ¬ inRange v) : writeIar v s = .error (.addressOutOfRange v) := if_neg h

theorem writeIar_eq_ok {v : Int} {s t : State} :
    writeIar v s = .ok t ↔ inRange v ∧ t = s.setIar (BitVec.ofInt 12 v) := by
  by_cases h : inRange v
  · rw [writeIar_in s h, Except.ok.injEq]; exact ⟨fun e => ⟨h, e.symm⟩, fun e => e.2.symm⟩
  · rw [writeIar_out s h]; exact ⟨fun e => (by cases e), fun e => absurd e.1 h⟩

theorem advance_eq_ok {len : Nat} {s t : State} :
    advance len s = .ok t ↔ inRange (fallThrough s len) ∧ t = s.setIar (BitVec.ofInt 12 (fallThrough s len)) :=
  writeIar_eq_ok

/-! ### The effective address -/

theorem resolve_short (m : Memory) (t : Tag) (disp : BitVec 8) :
    resolve m t (.short disp) = .ok (indexed m t (.short disp)) := rfl

theorem resolve_direct (m : Memory) (t : Tag) (addr : Word) :
    resolve m t (.long false addr) = .ok (indexed m t (.long false addr)) := rfl

theorem resolve_indirect_in {m : Memory} {t : Tag} {addr : Word} (h : inRange (indexed m t (.long true addr))) :
    resolve m t (.long true addr) = .ok (Word.uint (m.word (indexed m t (.long true addr)).toNat)) := by
  simp only [resolve, memRead_in m h, bind_ok]

theorem resolve_indirect_out {m : Memory} {t : Tag} {addr : Word} (h : ¬ inRange (indexed m t (.long true addr))) :
    resolve m t (.long true addr) = .error (.addressOutOfRange (indexed m t (.long true addr))) := by
  simp only [resolve, memRead_out m h, bind_error]

theorem readOperand_eq_ok {m : Memory} {t : Tag} {o : Operand} {v : Word} :
    readOperand m t o = .ok v ↔ ∃ ea, resolve m t o = .ok ea ∧ inRange ea ∧ m.word ea.toNat = v := by
  simp [readOperand, bind_eq_ok, memRead_eq_ok]

theorem writeOperand_eq_ok {m m' : Memory} {t : Tag} {o : Operand} {v : Word} :
    writeOperand m t o v = .ok m' ↔ ∃ ea, resolve m t o = .ok ea ∧ inRange ea ∧ m.setWord ea.toNat v = m' := by
  simp [writeOperand, bind_eq_ok, memWrite_eq_ok]

theorem writeOperand_wf {m m' : Memory} {t : Tag} {o : Operand} {v : Word} (h : m.wf = true)
    (hw : writeOperand m t o v = .ok m') : m'.wf = true := by
  simp only [writeOperand, bind_eq_ok] at hw
  obtain ⟨_, -, hw⟩ := hw
  exact memWrite_wf h hw

end Sys2Proof.Machine
end

