-- ==== Sys2Proof/Laws/Meanings.lean ====
section
/-! SUPPORT. For each shared meaning and for fetch and step, once, when it answers a state and which. -/

namespace Sys2Proof.Machine

variable {t : Tag} {o : Operand} {s u : State} {x : XReg} {c : Conditions}

theorem loadAcc_eq_ok : loadAcc t o s = .ok u ↔ ∃ v, readOperand s.mem t o = .ok v ∧
    inRange (fallThrough s o.len) ∧
    u = ((s.setAcc v).defineSignZero v).setIar (BitVec.ofInt 12 (fallThrough s o.len)) := by
  simp only [loadAcc, bind_eq_ok, advance_eq_ok]; rfl

theorem storeAcc_eq_ok : storeAcc t o s = .ok u ↔ ∃ m, writeOperand s.mem t o s.acc = .ok m ∧
    inRange (fallThrough s o.len) ∧ u = (s.setMem m).setIar (BitVec.ofInt 12 (fallThrough s o.len)) := by
  simp only [storeAcc, bind_eq_ok, advance_eq_ok]; rfl

theorem loadIndex_eq_ok : loadIndex x o s = .ok u ↔ ∃ v, readOperand s.mem none o = .ok v ∧
    inRange (fallThrough s o.len) ∧
    u = ((s.setMem (writeXr s.mem x v)).defineSignZero v).setIar (BitVec.ofInt 12 (fallThrough s o.len)) := by
  simp only [loadIndex, bind_eq_ok, advance_eq_ok]; rfl

theorem storeIndex_eq_ok : storeIndex x o s = .ok u ↔ ∃ m, writeOperand s.mem none o (readXr s.mem x) = .ok m ∧
    inRange (fallThrough s o.len) ∧ u = (s.setMem m).setIar (BitVec.ofInt 12 (fallThrough s o.len)) := by
  simp only [storeIndex, bind_eq_ok, advance_eq_ok]; rfl

theorem addToAcc_eq_ok : addToAcc t o s = .ok u ↔ ∃ v, readOperand s.mem t o = .ok v ∧
    inRange (fallThrough s o.len) ∧
    u = ((((s.setCarry (addCarry s.acc v)).setOverflow (addOverflow s.acc v)).defineSignZero
      (addResult s.acc v)).setAcc (addResult s.acc v)).setIar (BitVec.ofInt 12 (fallThrough s o.len)) := by
  simp only [addToAcc, bind_eq_ok, advance_eq_ok]; rfl

theorem subtractFromAcc_eq_ok : subtractFromAcc t o s = .ok u ↔ ∃ v, readOperand s.mem t o = .ok v ∧
    inRange (fallThrough s o.len) ∧
    u = ((((s.setCarry (subCarry s.acc v)).setOverflow (subOverflow s.acc v)).defineSignZero
      (subResult s.acc v)).setAcc (subResult s.acc v)).setIar (BitVec.ofInt 12 (fallThrough s o.len)) := by
  simp only [subtractFromAcc, bind_eq_ok, advance_eq_ok]; rfl

theorem andAcc_eq_ok : andAcc t o s = .ok u ↔ ∃ v, readOperand s.mem t o = .ok v ∧
    inRange (fallThrough s o.len) ∧
    u = ((s.defineSignZero (s.acc &&& v)).setAcc (s.acc &&& v)).setIar (BitVec.ofInt 12 (fallThrough s o.len)) := by
  simp only [andAcc, bind_eq_ok, advance_eq_ok]; rfl

theorem orAcc_eq_ok : orAcc t o s = .ok u ↔ ∃ v, readOperand s.mem t o = .ok v ∧
    inRange (fallThrough s o.len) ∧
    u = ((s.defineSignZero (s.acc ||| v)).setAcc (s.acc ||| v)).setIar (BitVec.ofInt 12 (fallThrough s o.len)) := by
  simp only [orAcc, bind_eq_ok, advance_eq_ok]; rfl

theorem skipOnCondition_eq_ok : skipOnCondition c s = .ok u ↔
    (condAny c s = true ∧ ∃ w, memRead s.mem (fallThrough s 1) = .ok w ∧ inRange (fallThrough s 1 + skipLength w) ∧
      u = s.setIar (BitVec.ofInt 12 (fallThrough s 1 + skipLength w))) ∨
    (condAny c s = false ∧ inRange (fallThrough s 1) ∧ u = s.setIar (BitVec.ofInt 12 (fallThrough s 1))) := by
  cases h : condAny c s <;> simp [skipOnCondition, h, bind_eq_ok, writeIar_eq_ok, advance_eq_ok]

theorem branchOnCondition_eq_ok : branchOnCondition t o c s = .ok u ↔ ∃ ea, resolve s.mem t o = .ok ea ∧
    ((condAny c s = true ∧ inRange (fallThrough s o.len) ∧ u = s.setIar (BitVec.ofInt 12 (fallThrough s o.len))) ∨
      (condAny c s = false ∧ inRange ea ∧ u = s.setIar (BitVec.ofInt 12 ea))) := by
  cases h : condAny c s <;> simp [branchOnCondition, h, bind_eq_ok, writeIar_eq_ok, advance_eq_ok]

theorem branchAndStore_eq_ok : branchAndStore t o s = .ok u ↔ ∃ ea, resolve s.mem t o = .ok ea ∧
    ∃ m, memWrite s.mem ea (trunc16 (fallThrough s o.len)) = .ok m ∧ inRange (ea + 1) ∧
      u = (s.setMem m).setIar (BitVec.ofInt 12 (ea + 1)) := by
  simp only [branchAndStore, bind_eq_ok, writeIar_eq_ok]

/-! ### Fetch and step -/

theorem fetchInstr_eq_ok {i : Instr} : fetchInstr s = .ok i ↔
    decodeFirst (firstWord s) = .short i ∨ ∃ complete, decodeFirst (firstWord s) = .long complete ∧
      inRange (fallThrough s 1) ∧ complete (s.mem.word (fallThrough s 1).toNat) = i := by
  cases h : decodeFirst (firstWord s) <;> simp [fetchInstr, h, raise, bind_eq_ok, memRead_eq_ok]

theorem step_eq_next {v : State} : step s = .next v ↔ s.halted = false ∧ ∃ i u, fetchInstr s = .ok i ∧
    exec i s = .next u ∧ v = u.countStep := by
  cases hh : s.halted
  · cases hf : fetchInstr s <;> simp [step, hh, hf, retire_eq_next]
  · simp [step, hh]

end Sys2Proof.Machine
end

