-- ==== Sys2Proof/Laws/PerInstr.lean ====
section
/-! SUPPORT. Facts about every instruction as syntax, one lemma per constructor. -/

namespace Sys2Proof.Laws

/-- An instruction's encoding has its length in words (30_encoding.md R80). -/
def EncodeLength.Statement (i : Instr) : Prop := (encode i).length = i.words

theorem EncodeLength.nop : EncodeLength.Statement (.nop) := rfl
theorem EncodeLength.sla (n : BitVec 6) : EncodeLength.Statement (.sla n) := rfl
theorem EncodeLength.sra (n : BitVec 6) : EncodeLength.Statement (.sra n) := rfl
theorem EncodeLength.wait : EncodeLength.Statement (.wait) := rfl
theorem EncodeLength.bsiShort (t : Tag) (disp : BitVec 8) : EncodeLength.Statement (.bsiShort t disp) := rfl
theorem EncodeLength.bsiLong (t : Tag) (ia : Bool) (addr : Word) : EncodeLength.Statement (.bsiLong t ia addr) := rfl
theorem EncodeLength.bscShort (c : Conditions) : EncodeLength.Statement (.bscShort c) := rfl
theorem EncodeLength.bscLong (t : Tag) (ia : Bool) (c : Conditions) (addr : Word) : EncodeLength.Statement (.bscLong t ia c addr) := rfl
theorem EncodeLength.ldxShort (x : XReg) (disp : BitVec 8) : EncodeLength.Statement (.ldxShort x disp) := rfl
theorem EncodeLength.ldxLong (x : XReg) (ia : Bool) (addr : Word) : EncodeLength.Statement (.ldxLong x ia addr) := rfl
theorem EncodeLength.stxShort (x : XReg) (disp : BitVec 8) : EncodeLength.Statement (.stxShort x disp) := rfl
theorem EncodeLength.stxLong (x : XReg) (ia : Bool) (addr : Word) : EncodeLength.Statement (.stxLong x ia addr) := rfl
theorem EncodeLength.aShort (t : Tag) (disp : BitVec 8) : EncodeLength.Statement (.aShort t disp) := rfl
theorem EncodeLength.aLong (t : Tag) (ia : Bool) (addr : Word) : EncodeLength.Statement (.aLong t ia addr) := rfl
theorem EncodeLength.sShort (t : Tag) (disp : BitVec 8) : EncodeLength.Statement (.sShort t disp) := rfl
theorem EncodeLength.sLong (t : Tag) (ia : Bool) (addr : Word) : EncodeLength.Statement (.sLong t ia addr) := rfl
theorem EncodeLength.ldShort (t : Tag) (disp : BitVec 8) : EncodeLength.Statement (.ldShort t disp) := rfl
theorem EncodeLength.ldLong (t : Tag) (ia : Bool) (addr : Word) : EncodeLength.Statement (.ldLong t ia addr) := rfl
theorem EncodeLength.stoShort (t : Tag) (disp : BitVec 8) : EncodeLength.Statement (.stoShort t disp) := rfl
theorem EncodeLength.stoLong (t : Tag) (ia : Bool) (addr : Word) : EncodeLength.Statement (.stoLong t ia addr) := rfl
theorem EncodeLength.andShort (t : Tag) (disp : BitVec 8) : EncodeLength.Statement (.andShort t disp) := rfl
theorem EncodeLength.andLong (t : Tag) (ia : Bool) (addr : Word) : EncodeLength.Statement (.andLong t ia addr) := rfl
theorem EncodeLength.orShort (t : Tag) (disp : BitVec 8) : EncodeLength.Statement (.orShort t disp) := rfl
theorem EncodeLength.orLong (t : Tag) (ia : Bool) (addr : Word) : EncodeLength.Statement (.orLong t ia addr) := rfl

/-- The format bit of an instruction's first word, which a skip measures, tells its length (30_encoding.md R81, R100). -/
def FormatBit.Statement (i : Instr) : Prop := ∀ w ∈ (encode i).head?, skipLength w = i.words

theorem format_bit_short (op : BitVec 5) (t : BitVec 2) (low : BitVec 8) : skipLength (shortWord op t low) = 1 := by
  simp only [skipLength, shortWord, BitVec.getLsbD_append]; simp

theorem format_bit_long (op : BitVec 5) (t : BitVec 2) (ia : Bool) (mod : BitVec 7) :
    skipLength (longWord op t ia mod) = 2 := by
  simp only [skipLength, longWord, BitVec.getLsbD_append]; simp

theorem FormatBit.nop : FormatBit.Statement (.nop) := by rintro _ ⟨⟩; rfl
theorem FormatBit.sla (n : BitVec 6) : FormatBit.Statement (.sla n) := by rintro _ ⟨⟩; exact format_bit_short _ _ _
theorem FormatBit.sra (n : BitVec 6) : FormatBit.Statement (.sra n) := by rintro _ ⟨⟩; exact format_bit_short _ _ _
theorem FormatBit.wait : FormatBit.Statement (.wait) := by rintro _ ⟨⟩; rfl
theorem FormatBit.bsiShort (t : Tag) (disp : BitVec 8) : FormatBit.Statement (.bsiShort t disp) := by rintro _ ⟨⟩; exact format_bit_short _ _ _
theorem FormatBit.bsiLong (t : Tag) (ia : Bool) (addr : Word) : FormatBit.Statement (.bsiLong t ia addr) := by rintro _ ⟨⟩; exact format_bit_long _ _ _ _
theorem FormatBit.bscShort (c : Conditions) : FormatBit.Statement (.bscShort c) := by rintro _ ⟨⟩; exact format_bit_short _ _ _
theorem FormatBit.bscLong (t : Tag) (ia : Bool) (c : Conditions) (addr : Word) : FormatBit.Statement (.bscLong t ia c addr) := by rintro _ ⟨⟩; exact format_bit_long _ _ _ _
theorem FormatBit.ldxShort (x : XReg) (disp : BitVec 8) : FormatBit.Statement (.ldxShort x disp) := by rintro _ ⟨⟩; exact format_bit_short _ _ _
theorem FormatBit.ldxLong (x : XReg) (ia : Bool) (addr : Word) : FormatBit.Statement (.ldxLong x ia addr) := by rintro _ ⟨⟩; exact format_bit_long _ _ _ _
theorem FormatBit.stxShort (x : XReg) (disp : BitVec 8) : FormatBit.Statement (.stxShort x disp) := by rintro _ ⟨⟩; exact format_bit_short _ _ _
theorem FormatBit.stxLong (x : XReg) (ia : Bool) (addr : Word) : FormatBit.Statement (.stxLong x ia addr) := by rintro _ ⟨⟩; exact format_bit_long _ _ _ _
theorem FormatBit.aShort (t : Tag) (disp : BitVec 8) : FormatBit.Statement (.aShort t disp) := by rintro _ ⟨⟩; exact format_bit_short _ _ _
theorem FormatBit.aLong (t : Tag) (ia : Bool) (addr : Word) : FormatBit.Statement (.aLong t ia addr) := by rintro _ ⟨⟩; exact format_bit_long _ _ _ _
theorem FormatBit.sShort (t : Tag) (disp : BitVec 8) : FormatBit.Statement (.sShort t disp) := by rintro _ ⟨⟩; exact format_bit_short _ _ _
theorem FormatBit.sLong (t : Tag) (ia : Bool) (addr : Word) : FormatBit.Statement (.sLong t ia addr) := by rintro _ ⟨⟩; exact format_bit_long _ _ _ _
theorem FormatBit.ldShort (t : Tag) (disp : BitVec 8) : FormatBit.Statement (.ldShort t disp) := by rintro _ ⟨⟩; exact format_bit_short _ _ _
theorem FormatBit.ldLong (t : Tag) (ia : Bool) (addr : Word) : FormatBit.Statement (.ldLong t ia addr) := by rintro _ ⟨⟩; exact format_bit_long _ _ _ _
theorem FormatBit.stoShort (t : Tag) (disp : BitVec 8) : FormatBit.Statement (.stoShort t disp) := by rintro _ ⟨⟩; exact format_bit_short _ _ _
theorem FormatBit.stoLong (t : Tag) (ia : Bool) (addr : Word) : FormatBit.Statement (.stoLong t ia addr) := by rintro _ ⟨⟩; exact format_bit_long _ _ _ _
theorem FormatBit.andShort (t : Tag) (disp : BitVec 8) : FormatBit.Statement (.andShort t disp) := by rintro _ ⟨⟩; exact format_bit_short _ _ _
theorem FormatBit.andLong (t : Tag) (ia : Bool) (addr : Word) : FormatBit.Statement (.andLong t ia addr) := by rintro _ ⟨⟩; exact format_bit_long _ _ _ _
theorem FormatBit.orShort (t : Tag) (disp : BitVec 8) : FormatBit.Statement (.orShort t disp) := by rintro _ ⟨⟩; exact format_bit_short _ _ _
theorem FormatBit.orLong (t : Tag) (ia : Bool) (addr : Word) : FormatBit.Statement (.orLong t ia addr) := by rintro _ ⟨⟩; exact format_bit_long _ _ _ _

end Sys2Proof.Laws
end

