-- ==== Sys2Proof/Tests/Slice0.lean ====
section
/-! SUPPORT. Tests: expected values are those of spec/95_test_vectors.md (the id stands with each) or worked by hand
from the rule named; then one witness per obligation that has hypotheses. -/

namespace Sys2Proof.Tests

open Sys2Proof.Machine Sys2Proof.Claims

/-! ### Helpers -/

/-- The reset state with words of memory set, ACC, the four flags C O S Z and IAR. -/
def start (iar : Nat) (words : List (Nat × Word)) (acc : Word := 0) (c o n z : Bool := false) : State where
  mem := words.foldl (fun m p => m.setWord p.1 p.2) []
  acc := acc
  ext := 0
  iar := BitVec.ofNat 12 iar
  carry := c
  overflow := o
  sign := n
  zero := z
  halted := false
  instrCount := 0
  cycleCount := 0

/-- ACC, IAR and C O S Z of a next state. -/
def regs : Result → Option (Word × Nat × Bool × Bool × Bool × Bool)
  | .next t => some (t.acc, t.iar.toNat, t.carry, t.overflow, t.sign, t.zero)
  | .fault _ => none
  | .refused _ => none

/-- IAR and a memory word of a next state. -/
def cell (a : Nat) : Result → Option (Nat × Word)
  | .next t => some (t.iar.toNat, t.mem.word a)
  | .fault _ => none
  | .refused _ => none

/-- The fault. -/
def faultOf : Result → Option Fault
  | .next _ => none
  | .fault f => some f
  | .refused _ => none

/-- The error of a host operation. -/
def errorOf {α : Type} : Except Fault α → Option Fault
  | .ok _ => none
  | .error f => some f

/-- The instruction and the rest of a decoding. -/
def decoded (ws : List Word) : Option (Instr × List Word) :=
  match decode ws with
  | .ok r => some r
  | .error _ => none

/-! ### WellFormed: the one ill-formed term is refused -/

theorem test_sla_zero_is_ill_formed : Instr.wellFormed (.sla 0) = false := by decide
theorem test_sla_one_is_well_formed : Instr.wellFormed (.sla 1) = true := by decide
theorem test_sra_zero_is_well_formed : Instr.wellFormed (.sra 0) = true := by decide

/-! ### Decode: for each row of R96 a word written out from the layouts of R82, R83, R91–R95 as OP F T low bits -/

/-- 00010 0 00 00000000 (R94). -/
theorem test_decode_nop : decoded [0b0001000000000000#16] = some (.nop, []) := by decide
/-- 00010 0 00 00 111111. -/
theorem test_decode_sla : decoded [0b0001000000111111#16] = some (.sla 63, []) := by decide
/-- 00011 0 00 00 000000. -/
theorem test_decode_sra : decoded [0b0001100000000000#16] = some (.sra 0, []) := by decide
/-- 00110 0 00 00000000. -/
theorem test_decode_wait : decoded [0b0011000000000000#16] = some (.wait, []) := by decide
/-- 01000 0 01 01100100 (BI3). -/
theorem test_decode_bsi_short : decoded [0b0100000101100100#16] = some (.bsiShort (some .xr1) 100, []) := by decide
/-- 01000 1 00 1 0000000, ADDR 200 (BI4). -/
theorem test_decode_bsi_long : decoded [0b0100010010000000#16, 0x00C8#16] = some (.bsiLong none true 200, []) := by
  decide
/-- 01001 0 00 00 Z=1 000 C=1 0. -/
theorem test_decode_bsc_short :
    decoded [0b0100100000100010#16] = some (.bscShort ⟨true, false, false, true, false⟩, []) := by decide
/-- 01001 1 10 1 0 0 −=1 +=1 0 0 O=1, ADDR 300. -/
theorem test_decode_bsc_long : decoded [0b0100111010011001#16, 0x012C#16] =
    some (.bscLong (some .xr2) true ⟨false, true, true, false, true⟩ 300, []) := by decide
/-- 01100 0 11 00110010 (LS13). -/
theorem test_decode_ldx_short : decoded [0b0110001100110010#16] = some (.ldxShort .xr3 50, []) := by decide
/-- 01100 1 10 0 0000000, ADDR 300 (LS21). -/
theorem test_decode_ldx_long : decoded [0b0110011000000000#16, 0x012C#16] = some (.ldxLong .xr2 false 300, []) := by
  decide
/-- 01101 0 01 00110010 (LS15). -/
theorem test_decode_stx_short : decoded [0b0110100100110010#16] = some (.stxShort .xr1 50, []) := by decide
/-- 01101 1 11 1 0000000, ADDR 200 (LS22). -/
theorem test_decode_stx_long : decoded [0b0110111110000000#16, 0x00C8#16] = some (.stxLong .xr3 true 200, []) := by
  decide
/-- 10000 0 01 00000101 (AR7). -/
theorem test_decode_a_short : decoded [0b1000000100000101#16] = some (.aShort (some .xr1) 5, []) := by decide
/-- 10000 1 10 0 0000000, ADDR 4095. -/
theorem test_decode_a_long : decoded [0b1000011000000000#16, 0x0FFF#16] = some (.aLong (some .xr2) false 4095, []) := by
  decide
/-- 10010 0 00 01100100. -/
theorem test_decode_s_short : decoded [0b1001000001100100#16] = some (.sShort none 100, []) := by decide
/-- 10010 1 00 0 0000000, ADDR 300 (AR9). -/
theorem test_decode_s_long : decoded [0b1001010000000000#16, 0x012C#16] = some (.sLong none false 300, []) := by decide
/-- 11000 0 10 11111111, DISP −1 (LS3). -/
theorem test_decode_ld_short : decoded [0b1100001011111111#16] = some (.ldShort (some .xr2) (-1), []) := by decide
/-- 11000 1 01 1 0000000, ADDR 200, a word left over (LS6). -/
theorem test_decode_ld_long :
    decoded [0b1100010110000000#16, 0x00C8#16, 7#16] = some (.ldLong (some .xr1) true 200, [7#16]) := by decide
/-- 11010 0 00 00000001 (LS11). -/
theorem test_decode_sto_short : decoded [0b1101000000000001#16] = some (.stoShort none 1, []) := by decide
/-- 11010 1 00 1 0000000, ADDR 200 (LS12). -/
theorem test_decode_sto_long : decoded [0b1101010010000000#16, 0x00C8#16] = some (.stoLong none true 200, []) := by
  decide
/-- 11100 0 11 10000000, DISP −128. -/
theorem test_decode_and_short : decoded [0b1110001110000000#16] = some (.andShort (some .xr3) (-128), []) := by decide
/-- 11100 1 11 1 0000000, ADDR 65535. -/
theorem test_decode_and_long :
    decoded [0b1110011110000000#16, 0xFFFF#16] = some (.andLong (some .xr3) true 65535, []) := by decide
/-- 11101 0 00 01111111, DISP 127. -/
theorem test_decode_or_short : decoded [0b1110100001111111#16] = some (.orShort none 127, []) := by decide
/-- 11101 1 01 0 0000000, ADDR 0. -/
theorem test_decode_or_long : decoded [0b1110110100000000#16, 0#16] = some (.orLong (some .xr1) false 0, []) := by
  decide
/-- The IOP words of section 2 of the vectors. -/
theorem test_decode_refuses : [0x0000#16, 0x0800#16, 0x1040#16, 0x1101#16, 0x1401#16, 0x1880#16, 0x3001#16, 0x4401#16,
    0x4804#16, 0x4840#16, 0x4920#16, 0x4C40#16, 0x4C44#16, 0x6000#16, 0x8800#16, 0xC47F#16, 0xF000#16, 0xFFFF#16].all
      (fun w => (decoded [w, 0#16]).isNone) = true := by decide
/-- A long first word alone is no instruction (R80). -/
theorem test_decode_needs_the_second_word : decode [0x4400#16] = .error (.secondWordMissing 0x4400#16) := by rfl
/-- The second word stands in bits 31..16 of the table's numbering (LS5). -/
theorem test_decode_table_word : decodeTableWord 32 0x00C8C480 = some (.ldLong none true 200) := by decide

/-! ### One step of each instruction -/

/-- LS1. -/
theorem test_ld_sign : regs (step (start 16 [(16, 0xC064), (100, 0x8000)])) =
    some (0x8000#16, 17, false, false, true, false) := by decide
/-- LS3: indexed, a negative displacement. -/
theorem test_ld_indexed : regs (step (start 16 [(16, 0xC2FF), (2, 0x0100), (255, 0x0055)])) =
    some (0x0055#16, 17, false, false, false, false) := by decide
/-- LS6: index first, then the pointer. -/
theorem test_ld_indexed_indirect :
    regs (step (start 16 [(16, 0xC580), (17, 0x00C8), (1, 2), (202, 0x012D), (301, 0x2222)])) =
      some (0x2222#16, 18, false, false, false, false) := by decide
/-- LS10: the fall-through of an instruction at 4095. -/
theorem test_ld_at_the_top : faultOf (step (start 4095 [(4095, 0xC064), (100, 5)])) =
    some (.addressOutOfRange 4096) := by decide
/-- LS11: the word stored at 1 is XR1. -/
theorem test_sto_index_cell : cell 1 (step (start 16 [(16, 0xD001)] 0x00AA)) = some (17, 0x00AA#16) := by decide
/-- LS12. -/
theorem test_sto_indirect_fault : faultOf (step (start 16 [(16, 0xD480), (17, 0x00C8), (200, 0xFFFF)])) =
    some (.addressOutOfRange 65535) := by decide
/-- LS20: the flags of LDX. -/
theorem test_ldx_flags : regs (step (start 16 [(16, 0x6101), (1, 0x8000)])) =
    some (0#16, 17, false, false, true, false) := by decide
/-- LS21. -/
theorem test_ldx_long : cell 2 (step (start 16 [(16, 0x6600), (17, 0x012C), (300, 7)])) = some (18, 7#16) := by decide
/-- LS15. -/
theorem test_stx_short : cell 50 (step (start 16 [(16, 0x6932), (1, 0x1234)])) = some (17, 0x1234#16) := by decide
/-- LS22. -/
theorem test_stx_indirect : cell 400 (step (start 16 [(16, 0x6F80), (17, 0x00C8), (3, 0x0042), (200, 0x0190)])) =
    some (18, 0x0042#16) := by decide
/-- AR3: carry and overflow together. -/
theorem test_a_carry_and_overflow : regs (step (start 16 [(16, 0x8064), (100, 0x8000)] 0x8000)) =
    some (0#16, 17, true, true, false, true) := by decide
/-- AR4: the flags are overwritten, not accumulated. -/
theorem test_a_clears_flags : regs (step (start 16 [(16, 0x8064)] 0x1234 true true)) =
    some (0x1234#16, 17, false, false, false, false) := by decide
/-- By hand from R150, long format: 0x7FFF + 1. -/
theorem test_a_long : regs (step (start 16 [(16, 0x8400), (17, 0x0FFF), (4095, 1)] 0x7FFF)) =
    some (0x8000#16, 18, false, true, true, false) := by decide
/-- SB3: borrow and overflow. -/
theorem test_s_borrow_and_overflow : regs (step (start 16 [(16, 0x9064), (100, 0xFFFF)] 0x7FFF)) =
    some (0x8000#16, 17, true, true, true, false) := by decide
/-- AR9. -/
theorem test_s_long : regs (step (start 16 [(16, 0x9400), (17, 0x012C), (300, 3)] 5)) =
    some (2#16, 18, false, false, false, false) := by decide
/-- LG1: Carry and Overflow are kept. -/
theorem test_and_keeps_carry : regs (step (start 16 [(16, 0xE064), (100, 0x00FF)] 0x0F0F true true)) =
    some (0x000F#16, 17, true, true, false, false) := by decide
/-- By hand from R170, long format. -/
theorem test_and_long : regs (step (start 16 [(16, 0xE400), (17, 0x0064), (100, 0xF0F0)] 0x0F0F)) =
    some (0#16, 18, false, false, false, true) := by decide
/-- LG4. -/
theorem test_or : regs (step (start 16 [(16, 0xE864), (100, 0x8001)] 0x0F00 true)) =
    some (0x8F01#16, 17, true, false, true, false) := by decide
/-- By hand from R172, long format. -/
theorem test_or_long : regs (step (start 16 [(16, 0xEC00), (17, 0x0064)] 0 false true)) =
    some (0#16, 18, false, true, false, true) := by decide
/-- SH3: the last bit out of a count of 16. -/
theorem test_sla_sixteen : regs (step (start 16 [(16, 0x1010)] 1 false true)) =
    some (0#16, 17, true, true, false, true) := by decide
/-- SH4: past 16 the carry is 0. -/
theorem test_sla_seventeen : regs (step (start 16 [(16, 0x1011)] 0xFFFF true true)) =
    some (0#16, 17, false, true, false, true) := by decide
/-- SH12. -/
theorem test_sra_long_count : regs (step (start 16 [(16, 0x183F)] 0x8001 true true)) =
    some (0xFFFF#16, 17, true, true, true, false) := by decide
/-- SH18: SRA 0 refreshes the flags. -/
theorem test_sra_zero : regs (step (start 16 [(16, 0x1800)])) = some (0#16, 17, false, false, false, true) := by decide
/-- BS3: a skip over a long instruction. -/
theorem test_bsc_skips_two : regs (step (start 16 [(16, 0x4810), (17, 0xC400)] 0 false false true)) =
    some (0#16, 19, false, false, true, false) := by decide
/-- BS13. -/
theorem test_bsc_skip_fault :
    faultOf (step (start 4094 [(4094, 0x4820), (4095, 0xC400)] 0 false false false true)) =
      some (.addressOutOfRange 4097) := by decide
/-- BL11. -/
theorem test_bsc_branch_indexed : regs (step (start 16 [(16, 0x4D00), (17, 0x012C), (1, 0xFFFF)])) =
    some (0#16, 299, false, false, false, false) := by decide
/-- BL15: the pointer is read though the branch is not taken. -/
theorem test_bsc_pointer_fault :
    faultOf (step (start 16 [(16, 0x4CA0), (17, 0x1388)] 0 false false false true)) =
      some (.addressOutOfRange 5000) := by decide
/-- BI3. -/
theorem test_bsi_short : cell 105 (step (start 16 [(16, 0x4164), (1, 5)])) = some (106, 0x0011#16) := by decide
/-- BI6: a link word of 4096 is stored. -/
theorem test_bsi_long : cell 200 (step (start 4094 [(4094, 0x4400), (4095, 0x00C8)])) = some (201, 0x1000#16) := by
  decide
/-- SY2. -/
theorem test_wait_at_the_top : (hostStep (start 4095 [(4095, 0x3000)])).1.halted = true ∧
    (hostStep (start 4095 [(4095, 0x3000)])).1.iar = 4095 := by decide
/-- SY3. -/
theorem test_nop_keeps_flags : regs (step (start 7 [(7, 0x1000)] 0 true true true true)) =
    some (0#16, 8, true, true, true, true) := by decide
/-- LS14. -/
theorem test_invalid_opcode : faultOf (step (start 16 [(16, 0x6032)])) = some (.invalidOpcode 16 0x6032) := by decide

/-! ### Memory and the host's operations -/

/-- A word of 0 is not listed, and memories with equal words are equal data. -/
theorem test_memory_canonical : ((Memory.setWord [] 5 0x1200#16).setWord 5 0) = [] ∧
    ((Memory.setWord [] 5 0x0012#16).setWord 4 0xFF00#16) = ((Memory.setWord [] 4 0xFF00#16).setWord 5 0x0012#16) := by
  decide
/-- X1. -/
theorem test_write_memory_truncates : ((writeMemory 5 0x12345 State.reset).toOption.map fun t => t.mem.word 5) =
    some 0x2345#16 ∧ ((writeMemory 5 (-1) State.reset).toOption.map fun t => t.mem.word 5) = some 0xFFFF#16 := by decide
/-- HO4. -/
theorem test_load_program_to_the_top :
    ((loadProgram 4089 [1, 2, 3, 4, 5, 6, 7] State.reset).toOption.map fun t => (t.iar.toNat, t.mem.word 4095)) =
      some (4089, 7#16) := by decide
/-- Scenario A. -/
theorem test_scenario_a :
    ((boot 0 [0xC064, 0x3000] [(100, 7)] State.reset).toOption.map fun s =>
      ((run 10 s).2, (run 10 s).1.acc, (run 10 s).1.iar.toNat)) = some (.halted, 7#16, 1) := by decide
/-! ### The assembler -/

/-- The prefix `0x` of the spec's notation (R128). -/
def hexPrefix : Name := ['0', 'x']

/-- A source assembled with that prefix and the policy that takes every forward reference as long. -/
def assembled (source : String) (start : Int) : Assembly :=
  assemble hexPrefix (fun _ _ => .long) source.toList start

/-- The kinds, lines and columns of the diagnostics. -/
def problems : Assembly → List (AssemblyErrorKind × Nat × Nat)
  | .diagnostics es => es.map fun e => (e.kind, e.line, e.column)
  | .program _ => []
  | .refused _ => []

/-- The machine with an assembled Program in it. -/
def loaded : Assembly → Option State
  | .program p => (loadAssembled p State.reset).toOption
  | .diagnostics _ => none
  | .refused _ => none

/-- Scenario B. -/
theorem test_assemble_scenario_b : assembled "ORG 100\nDATA 42\nORG 0\nLD 0 100\nWAIT" 0 =
    .program ⟨[(100, 0x002A#16), (0, 0xC064#16), (1, 0x3000#16)], 0⟩ := by decide

/-- The words of P2's loop and its branch back to a label, by 95_test_vectors.md section 4. -/
theorem test_assemble_labels : assembled "LDX 1 43\nloop: LD 1 0x64\nBSC.L 0 loop Z\nWAIT" 16 =
    .program ⟨[(16, 0x612B#16), (17, 0xC164#16), (18, 0x4C20#16), (19, 0x0011#16), (20, 0x3000#16)], 16⟩ := by decide

/-- A forward reference takes the policy's length (D42), here 2 words. -/
theorem test_assemble_forward_reference : assembled "LD 0 x\nx: DATA -1" 4 =
    .program ⟨[(4, 0xC400#16), (5, 6#16), (6, 0xFFFF#16)], 4⟩ := by decide

/-- One call returns every problem (R125): a second label, an unknown mnemonic, a DATA without its operand, then a label
that is nowhere and a direct operand of -1. -/
theorem test_assemble_diagnostics : problems (assembled "x: NOP\nx: LDD 0 1\n DATA\nLD 0 y\n A 0 -1" 0) =
    [(.duplicateLabel, 2, 1), (.unknownMnemonic, 2, 4), (.malformedDirective, 3, 2), (.undefinedSymbol, 4, 1),
      (.operandOutOfRange, 5, 2)] := by decide

/-- Scenario A from its source: assembled, put into memory, run. -/
theorem test_assemble_load_run :
    ((loaded (assembled "LD 0 100\nWAIT\nORG 100\nDATA 7" 0)).map fun s => ((run 10 s).2, (run 10 s).1.acc)) =
      some (.halted, 7#16) := by decide

/-! ### Witnesses: states and operands that meet the hypotheses of the obligations, clause by clause -/

/-- The pointer of an indirect form outside memory. -/
abbrev PointerOut (s : State) (t : Tag) (o : Operand) : Prop :=
  isIndirect o = true ∧ ¬ inRange (indexedAddress s.mem t o)

/-- The hypothesis under which a statement speaks of the EA. -/
abbrev AtEA (s : State) (t : Tag) (o : Operand) : Prop := isIndirect o = true → inRange (indexedAddress s.mem t o)

/-- The EA outside memory. -/
abbrev EaOut (s : State) (t : Tag) (o : Operand) : Prop := AtEA s t o ∧ ¬ inRange (effective s.mem t o)

/-- The EA in memory and the fall-through address outside. -/
abbrev NextOut (s : State) (len : Nat) (t : Tag) (o : Operand) : Prop :=
  AtEA s t o ∧ inRange (effective s.mem t o) ∧ ¬ inRange (s.iar.toNat + len : Int)

/-- Both in memory, the memory canonical: the instruction completes. -/
abbrev Runs (s : State) (len : Nat) (t : Tag) (o : Operand) : Prop :=
  AtEA s t o ∧ inRange (effective s.mem t o) ∧ inRange (s.iar.toNat + len : Int) ∧ s.mem.wf = true

/-- XR1 = −200, XR2 = 4095, M[0] = 4095, M[4095] = 4096, M[200] = 300. -/
def sample (iar : Nat) : State := start iar [(0, 4095), (1, 0xFF38), (2, 0x0FFF), (200, 300), (4095, 4096)]

/-- Whether an outcome is a next state. -/
def isNext : Result → Bool
  | .next _ => true
  | .fault _ => false
  | .refused _ => false

theorem next_of_isNext {r : Result} (h : isNext r = true) : ∃ t, r = .next t := by
  cases r with
  | next t => exact ⟨t, rfl⟩
  | fault _ => cases h
  | refused _ => cases h

theorem fault_of_faultOf {r : Result} {f : Fault} (h : faultOf r = some f) : r = .fault f := by
  cases r with
  | next _ => cases h
  | fault g => exact congrArg _ (Option.some.inj h)
  | refused _ => cases h

/-- A machine at 4095 with the word `w` there. -/
def top (w : Word) : State := start 4095 [(4095, w)]

/-- It fetches that word as the first of a long row. -/
abbrev FetchesAtTop (w mask pattern : Word) : Prop :=
  (top w).mem.word 4095 &&& mask = pattern ∧ (top w).halted = false ∧ (top w).iar = 4095

/-- Every clause of a statement about an operand, at the ends of its ranges. -/
def OperandCases : Prop :=
  (PointerOut (sample 0) none (.long true 4096) ∧ PointerOut (sample 0) (some .xr1) (.long true 4296) ∧
    PointerOut (sample 0) (some .xr1) (.long true 199)) ∧
  (EaOut (sample 0) none (.short (-1)) ∧ EaOut (sample 0) (some .xr2) (.short 1) ∧
    EaOut (sample 0) none (.long false 4096) ∧ EaOut (sample 0) none (.long true 4095)) ∧
  (NextOut (sample 4095) 1 none (.short 0) ∧ NextOut (sample 4094) 2 none (.long false 4095)) ∧
  (Runs (sample 4094) 1 none (.short 0) ∧ Runs (sample 0) 1 (some .xr2) (.short 0) ∧
    Runs (sample 4093) 2 none (.long false 4095) ∧ Runs (sample 0) 2 (some .xr1) (.long false 200) ∧
    Runs (sample 0) 2 none (.long true 0))

theorem operand_cases : OperandCases := ⟨by decide, by decide, by decide, by decide⟩

theorem witness_LdLoadsTheOperand :
    (0xC3FF#16 &&& 0xFC00#16 = 0xC000#16 ∧ 0xC780#16 &&& 0xFC7F#16 = 0xC400#16 ∧
      FetchesAtTop 0xC780 0xFC7F 0xC400) ∧ OperandCases :=
  ⟨by decide, operand_cases⟩

theorem witness_StoStoresTheAccumulator :
    (0xD3FF#16 &&& 0xFC00#16 = 0xD000#16 ∧ 0xD780#16 &&& 0xFC7F#16 = 0xD400#16 ∧
      FetchesAtTop 0xD780 0xFC7F 0xD400) ∧ OperandCases :=
  ⟨by decide, operand_cases⟩

theorem witness_AddsTheOperand :
    (0x83FF#16 &&& 0xFC00#16 = 0x8000#16 ∧ 0x8780#16 &&& 0xFC7F#16 = 0x8400#16 ∧
      FetchesAtTop 0x8780 0xFC7F 0x8400) ∧ OperandCases :=
  ⟨by decide, operand_cases⟩

theorem witness_SubtractsTheOperand :
    (0x93FF#16 &&& 0xFC00#16 = 0x9000#16 ∧ 0x9780#16 &&& 0xFC7F#16 = 0x9400#16 ∧
      FetchesAtTop 0x9780 0xFC7F 0x9400) ∧ OperandCases :=
  ⟨by decide, operand_cases⟩

theorem witness_AndsTheOperand :
    (0xE3FF#16 &&& 0xFC00#16 = 0xE000#16 ∧ 0xE780#16 &&& 0xFC7F#16 = 0xE400#16 ∧
      FetchesAtTop 0xE780 0xFC7F 0xE400) ∧ OperandCases :=
  ⟨by decide, operand_cases⟩

theorem witness_OrsTheOperand :
    (0xEBFF#16 &&& 0xFC00#16 = 0xE800#16 ∧ 0xEF80#16 &&& 0xFC7F#16 = 0xEC00#16 ∧
      FetchesAtTop 0xEF80 0xFC7F 0xEC00) ∧ OperandCases :=
  ⟨by decide, operand_cases⟩

/-- The cases of an instruction whose EA is never indexed. -/
def UnindexedCases : Prop :=
  PointerOut (sample 0) none (.long true 4096) ∧
  (EaOut (sample 0) none (.short (-1)) ∧ EaOut (sample 0) none (.long false 4096) ∧
    EaOut (sample 0) none (.long true 4095)) ∧
  (NextOut (sample 4095) 1 none (.short 0) ∧ NextOut (sample 4094) 2 none (.long true 0)) ∧
  (Runs (sample 4094) 1 none (.short 0) ∧ Runs (sample 4093) 2 none (.long false 4095) ∧
    Runs (sample 0) 2 none (.long true 0))

theorem unindexed_cases : UnindexedCases := ⟨by decide, by decide, by decide, by decide⟩

theorem witness_LdxLoadsTheIndexRegister :
    (0x6032#16 &&& 0xFC00#16 = 0x6000#16 ∧ tagField 0x6032#16 = none ∧
      0x63FF#16 &&& 0xFC00#16 = 0x6000#16 ∧ tagField 0x63FF#16 = some .xr3 ∧
      0x6480#16 &&& 0xFC7F#16 = 0x6400#16 ∧ tagField 0x6480#16 = none ∧
      0x6580#16 &&& 0xFC7F#16 = 0x6400#16 ∧ tagField 0x6580#16 = some .xr1 ∧
      FetchesAtTop 0x6580 0xFC7F 0x6400) ∧ UnindexedCases :=
  ⟨by decide, unindexed_cases⟩

theorem witness_StxStoresTheIndexRegister :
    (0x6832#16 &&& 0xFC00#16 = 0x6800#16 ∧ tagField 0x6832#16 = none ∧
      0x6BFF#16 &&& 0xFC00#16 = 0x6800#16 ∧ tagField 0x6BFF#16 = some .xr3 ∧
      0x6C80#16 &&& 0xFC7F#16 = 0x6C00#16 ∧ tagField 0x6C80#16 = none ∧
      0x6D80#16 &&& 0xFC7F#16 = 0x6C00#16 ∧ tagField 0x6D80#16 = some .xr1 ∧
      FetchesAtTop 0x6D80 0xFC7F 0x6C00) ∧ UnindexedCases :=
  ⟨by decide, unindexed_cases⟩

/-- The EA and the EA after it, at the ends of their ranges. -/
theorem witness_BsiStoresTheReturnAddress :
    (0x43FF#16 &&& 0xFC00#16 = 0x4000#16 ∧ 0x4780#16 &&& 0xFC7F#16 = 0x4400#16 ∧
      FetchesAtTop 0x4780 0xFC7F 0x4400) ∧
    (PointerOut (sample 0) none (.long true 4096) ∧ EaOut (sample 0) none (.short (-1)) ∧
      EaOut (sample 0) none (.long false 4096)) ∧
    (AtEA (sample 0) none (.long false 4095) ∧ inRange (effective (sample 0).mem none (.long false 4095)) ∧
      ¬ inRange (effective (sample 0).mem none (.long false 4095) + 1)) ∧
    (AtEA (sample 0) (some .xr2) (.short (-1)) ∧ inRange (effective (sample 0).mem (some .xr2) (.short (-1))) ∧
      inRange (effective (sample 0).mem (some .xr2) (.short (-1)) + 1) ∧ (sample 0).mem.wf = true) :=
  ⟨by decide, by decide, by decide, by decide⟩

theorem witness_DecodeOfEncodeIsTheInstruction : Instr.wellFormed (.sla 1) = true ∧ Instr.wellFormed (.sla 63) = true ∧
    Instr.wellFormed (.orLong (some .xr3) true 0xFFFF) = true := by decide

theorem witness_DecodedWordsAreTheEncoding :
    decode [0xC480#16, 0x00C8#16, 7#16] = .ok (.ldLong none true 200, [7#16]) ∧
      decode [0x483B#16] = .ok (.bscShort ⟨true, true, true, true, true⟩, []) := ⟨by rfl, by rfl⟩

/-- A word that meets a row, and a word that meets none. -/
theorem witness_DecodeTableRowsAreDisjoint :
    (∃ r ∈ decodeTable, r.holds 0x1000#16 = true) ∧ ∀ r ∈ decodeTable, r.holds 0x0000#16 = false := by
  refine ⟨⟨_, List.mem_cons_self, by decide⟩, ?_⟩
  have h : decodeTable.all (fun r => !r.holds 0x0000#16) = true := by decide
  simpa using h

/-- A word for each alternative of R97, and a state that fetches one. -/
theorem witness_InvalidWordsAreThoseListed :
    InvalidWord 0x0000#16 ∧ InvalidWord 0x1400#16 ∧ InvalidWord 0x3001#16 ∧ InvalidWord 0x4804#16 ∧
    InvalidWord 0x4C40#16 ∧ InvalidWord 0x6000#16 ∧ InvalidWord 0xC401#16 ∧
    (start 4095 [(4095, 0xC401)]).halted = false ∧ InvalidWord ((start 4095 [(4095, 0xC401)]).mem.word 4095) := by
  have h : (start 4095 [(4095, 0xC401)]).mem.word 4095 = 0xC401#16 := by decide
  have g : InvalidWord 0xC401#16 := .inr (.inr (.inr (.inr (.inr (.inr (by decide))))))
  exact ⟨.inl (by decide), .inr (.inl (by decide)), .inr (.inr (.inl (by decide))),
    .inr (.inr (.inr (.inl (by decide)))), .inr (.inr (.inr (.inr (.inl (by decide))))),
    .inr (.inr (.inr (.inr (.inr (.inl (by decide)))))), g, rfl, h ▸ g⟩

theorem witness_LengthIsKnownFromTheFormatBit :
    decode [0x1000#16, 5#16] = .ok (.nop, [5#16]) ∧
      decode [0x4400#16, 0x1000#16] = .ok (.bsiLong none false 0x1000#16, []) := ⟨by rfl, by rfl⟩

theorem witness_AccessOutsideMemoryFaults :
    ((0 : Int) ≤ 0 ∧ (0 : Int) ≤ 4095) ∧ ((0 : Int) ≤ 4095 ∧ (4095 : Int) ≤ 4095) ∧
      ((-1 : Int) < 0 ∨ (4095 : Int) < -1) ∧ ((4096 : Int) < 0 ∨ (4095 : Int) < 4096) := by decide

theorem witness_HostWriteReadsBackTruncated :
    State.reset.mem.wf = true ∧ inRange 0 ∧ inRange 4095 ∧ ¬ inRange (-1) ∧ ¬ inRange 4096 := by decide

theorem witness_IndexRegistersAreMemoryWords :
    (sample 16).mem.wf = true ∧ (∃ t, writeMemory 1 0x1BEEF (sample 16) = .ok t) ∧
      (∃ t, writeMemory 2 (-1) (sample 16) = .ok t) ∧ (∃ t, writeMemory 3 0 (sample 16) = .ok t) ∧
      readMemory (BitVec.toInt 2#8) (sample 16) = .ok 0x0FFF#16 ∧ ∃ t, exec (.ldxShort .xr3 2) (sample 16) = .next t :=
  ⟨by decide, ⟨_, rfl⟩, ⟨_, rfl⟩, ⟨_, rfl⟩, by rfl, ⟨_, rfl⟩⟩

/-- A pointer in memory at each end, and one outside. -/
theorem witness_EffectiveAddressTable :
    inRange (indexedAddress (sample 0).mem none (.long true 0)) ∧
    inRange (indexedAddress (sample 0).mem (some .xr2) (.long true 0)) ∧
    PointerOut (sample 0) (some .xr1) (.long true 199) ∧ PointerOut (sample 0) none (.long true 4096) := by decide

theorem witness_IarWriteIsChecked :
    ((-1 : Int) < 0 ∨ (-1 : Int) > 4095) ∧ ((4096 : Int) < 0 ∨ (4096 : Int) > 4095) ∧
      ((0 : Int) ≤ 0 ∧ (0 : Int) ≤ 4095) ∧ ((0 : Int) ≤ 4095 ∧ (4095 : Int) ≤ 4095) := by decide

/-- A fall-through address at each end of its range, and a count of 1, 16 and 63. -/
theorem witness_ShiftsLeft :
    (0x103F#16 &&& 0xFFC0#16 = 0x1000#16 ∧ 0x103F#16 ≠ 0x1000#16) ∧ ((1#6 ≠ 0#6) ∧ (63#6 ≠ 0#6)) ∧
    ¬ inRange ((start 4095 []).iar.toNat + 1 : Int) ∧ inRange ((start 4094 []).iar.toNat + 1 : Int) ∧
    (16#6).toNat ≥ 16 ∧ ∃ t, exec (.sla 16) (start 4094 []) = .next t :=
  ⟨by decide, by decide, by decide, by decide, by decide, next_of_isNext (by decide)⟩

theorem witness_ShiftsRightKeepingTheSign :
    0x183F#16 &&& 0xFFC0#16 = 0x1800#16 ∧
    ¬ inRange ((start 4095 []).iar.toNat + 1 : Int) ∧ inRange ((start 4094 []).iar.toNat + 1 : Int) ∧
    (15#6).toNat ≥ 15 ∧ ∃ t, exec (.sra 15) (start 4094 []) = .next t :=
  ⟨by decide, by decide, by decide, by decide, next_of_isNext (by decide)⟩

/-- The condition Z. -/
def onZero : Conditions := ⟨true, false, false, false, false⟩

theorem selected_on_zero (iar : Nat) (words : List (Nat × Word)) :
    Selected onZero (start iar words 0 false false false true) := .inl ⟨rfl, rfl⟩

theorem not_selected_on_zero (iar : Nat) (words : List (Nat × Word)) : ¬ Selected onZero (start iar words) := by
  simp [Selected, onZero, start]

/-- Selected with the skipped word outside memory; selected over a short and over a long word, the target at each end
of its range; not selected, the fall-through address at each end of its range. -/
theorem witness_ShortBscSkipsTheNextInstruction :
    0x483B#16 &&& 0xFFC4#16 = 0x4800#16 ∧
    (Selected onZero (start 4095 [] 0 false false false true) ∧ ¬ inRange ((4095 : Nat) + 1 : Int)) ∧
    (Selected onZero (start 4093 [] 0 false false false true) ∧ inRange ((4093 : Nat) + 1 : Int) ∧
      inRange ((4093 : Nat) + 1 + 1 : Int)) ∧
    (Selected onZero (start 4093 [(4094, 0xC400)] 0 false false false true) ∧ inRange ((4093 : Nat) + 1 : Int) ∧
      ¬ inRange ((4093 : Nat) + 1 + 2 : Int)) ∧
    (¬ Selected onZero (start 4095 []) ∧ ¬ inRange ((4095 : Nat) + 1 : Int)) ∧
    (¬ Selected onZero (start 4094 []) ∧ inRange ((4094 : Nat) + 1 : Int)) :=
  ⟨by decide, ⟨selected_on_zero _ _, by decide⟩, ⟨selected_on_zero _ _, by decide, by decide⟩,
    ⟨selected_on_zero _ _, by decide, by decide⟩, ⟨not_selected_on_zero _ _, by decide⟩,
    ⟨not_selected_on_zero _ _, by decide⟩⟩

/-- The pointer outside; not selected, the target at each end of its range; selected, the fall-through address at each
end of its range. -/
theorem witness_LongBscBranches :
    (0x4FBB#16 &&& 0xFC44#16 = 0x4C00#16 ∧ FetchesAtTop 0x4FBB 0xFC44 0x4C00) ∧ PointerOut (start 0 []) none (.long true 4096) ∧
    (AtEA (start 0 []) none (.long false 4096) ∧ ¬ inRange (effective (start 0 []).mem none (.long false 4096)) ∧
      AtEA (start 0 []) none (.long true 4095) ∧ inRange (effective (start 0 []).mem none (.long true 4095))) ∧
    ¬ Selected onZero (start 0 []) ∧
    (Selected onZero (start 4094 [] 0 false false false true) ∧ ¬ inRange ((4094 : Nat) + 2 : Int)) ∧
    (Selected onZero (start 4093 [] 0 false false false true) ∧ inRange ((4093 : Nat) + 2 : Int)) :=
  ⟨by decide, by decide, by decide, not_selected_on_zero _ _, ⟨selected_on_zero _ _, by decide⟩,
    ⟨selected_on_zero _ _, by decide⟩⟩

/-- A call from 4093 of 4094, and the state after it as the state that returns. -/
theorem witness_ReturnThroughTheLinkWord :
    (start 4093 []).mem.wf = true ∧ (4094#16).toNat < 4095 ∧ (start 4093 []).iar.toNat + 2 ≤ 4095 ∧
      ∃ t, exec (.bsiLong none false 4094) (start 4093 []) = .next t ∧ t.mem.word 4094 = 0x0FFF#16 :=
  ⟨by decide, by decide, by decide, ⟨_, rfl, by decide⟩⟩

theorem witness_WaitHalts :
    (start 4095 [(4095, 0x3000)]).halted = false ∧ (start 4095 [(4095, 0x3000)]).mem.word 4095 = 0x3000#16 := by decide

theorem witness_NopOnlyAdvances :
    ¬ inRange ((start 4095 []).iar.toNat + 1 : Int) ∧ inRange ((start 4094 []).iar.toNat + 1 : Int) ∧
    (start 4094 [(4094, 0x1000)]).halted = false ∧ (start 4094 [(4094, 0x1000)]).mem.word 4094 = 0x1000#16 ∧
      (start 4094 [(4094, 0x1000)]).iar.toNat < 4095 := by decide

/-- LD defines Sign and Zero alone; STO defines no flag. -/
theorem witness_FlagTable :
    (sample 16).mem.wf = true ∧
    (∃ t, exec (.ldShort none 2) (sample 16) = .next t ∧ definedResult (.ldShort none 2) t = some 0x0FFF#16) ∧
    ∃ t, exec (.stoShort none 2) (sample 16) = .next t ∧ definedResult (.stoShort none 2) t = none :=
  ⟨by decide, ⟨_, rfl, by rfl⟩, ⟨_, rfl, rfl⟩⟩

theorem witness_RegisterFrame :
    ∃ t, exec (.bscShort noConditions) (sample 16) = .next t ∧ writesAcc (.bscShort noConditions) = false ∧
      Instr.bscShort noConditions ≠ .wait ∧ storedAddress (.bscShort noConditions) (sample 16) = none :=
  ⟨_, rfl, rfl, by decide, rfl⟩

/-- STO at 4095, seen from 0 and from 4096. -/
theorem witness_OnlyTheStoredWordChanges :
    (∃ t, exec (.stoLong none false 4095) (sample 16) = .next t) ∧
      storedAddress (.stoLong none false 4095) (sample 16) = some 4095 ∧ (some (4095 : Int) ≠ some 0) ∧
      (some (4095 : Int) ≠ some 4096) := ⟨⟨_, rfl⟩, by decide, by decide, by decide⟩

theorem witness_OnlyBscReadsTheFlags :
    notBranchOnCondition (.aShort none 2) = true ∧ definesCarry (.aShort none 2) = true ∧
      definesOverflow (.aShort none 2) = true ∧
      (∃ t, exec (.aShort none 2) (sample 16) = .next t ∧ definedResult (.aShort none 2) t ≠ none) ∧
      exec (.aShort none (-1)) (sample 16) = .fault (.addressOutOfRange (-1)) :=
  ⟨rfl, rfl, rfl, ⟨_, rfl, by simp [definedResult, writesAcc]⟩, fault_of_faultOf (by decide)⟩

theorem witness_ExtIsNeitherReadNorWritten :
    (∃ t, step (top 0x3000) = .next t) ∧ (∃ f, step (start 0 []) = .fault f) ∧
    (∃ t, writeMemory 0 1 (start 0 []) = .ok t) ∧ ∃ t, loadProgram 0 [1] (start 0 []) = .ok t :=
  ⟨next_of_isNext (by decide), ⟨_, rfl⟩, ⟨_, rfl⟩, ⟨_, rfl⟩⟩

/-- A short instruction at 4095 that faults, one at 4094 that completes, and a long one at 4093. -/
theorem witness_StepRunsTheDecodedInstruction :
    (start 4095 [(4095, 0x1000)]).halted = false ∧
    decode [(start 4095 [(4095, 0x1000)]).mem.word 4095] = .ok (.nop, []) ∧
    exec .nop (start 4095 [(4095, 0x1000)]) = .fault (.addressOutOfRange 4096) ∧
    decode [(start 4094 [(4094, 0x1000)]).mem.word 4094] = .ok (.nop, []) ∧
    (∃ t, exec .nop (start 4094 [(4094, 0x1000)]) = .next t) ∧
    (start 4093 [(4093, 0xC400), (4094, 5)]).iar.toNat < 4095 ∧
    decode [(start 4093 [(4093, 0xC400), (4094, 5)]).mem.word 4093,
      (start 4093 [(4093, 0xC400), (4094, 5)]).mem.word 4094] = .ok (.ldLong none false 5, []) :=
  ⟨rfl, by rfl, fault_of_faultOf (by decide), by rfl, next_of_isNext (by decide), by decide, by rfl⟩

/-- A halted machine. -/
def halted : State := (start 16 []).setHalted true

theorem witness_FaultsBeforeExecutionInOrder :
    halted.halted = true ∧ ((start 16 []).halted = false ∧ decodeFirst ((start 16 []).mem.word 16) = .invalid) ∧
    ((start 4095 [(4095, 0x4C00)]).halted = false ∧ (start 4095 [(4095, 0x4C00)]).iar = 4095 ∧
      ∃ k, decodeFirst ((start 4095 [(4095, 0x4C00)]).mem.word 4095) = .long k) :=
  ⟨rfl, ⟨rfl, by rfl⟩, ⟨rfl, by decide, ⟨_, rfl⟩⟩⟩

/-- Each of the three faults of a step is raised. -/
theorem witness_StepFaultsAreTheCoreFaults :
    step halted = .fault .alreadyHalted ∧ step (start 16 []) = .fault (.invalidOpcode 16 0) ∧
      step (start 4095 [(4095, 0x1000)]) = .fault (.addressOutOfRange 4096) :=
  ⟨by rfl, by rfl, fault_of_faultOf (by decide)⟩

theorem witness_HaltedMachineRefusesToRun : halted.halted = true ∧ (1 : Int) ≥ 1 := by decide

theorem witness_OnlyWaitSetsHalted :
    (halted.halted = true ∧ (1 : Int) ≥ 1) ∧
    (∃ t, step (start 4095 [(4095, 0x3000)]) = .next t) ∧ (∃ t, step (start 4094 [(4094, 0x1000)]) = .next t) ∧
      (∃ t, writeMemory 4095 1 halted = .ok t) ∧ ∃ t, loadProgram 0 [1] halted = .ok t :=
  ⟨by decide, next_of_isNext (by decide), next_of_isNext (by decide), ⟨_, rfl⟩, ⟨_, rfl⟩⟩

theorem witness_CountersCountCompletedSteps :
    (∃ t, step (top 0x3000) = .next t) ∧ (∃ f, step (start 16 []) = .fault f) ∧
    (∃ t, hostStep (start 16 [(16, 0x3000)]) = (t, .completed)) ∧ ∃ t f, hostStep (start 16 []) = (t, .failed f) :=
  ⟨next_of_isNext (by decide), ⟨_, rfl⟩, ⟨_, rfl⟩, ⟨_, _, rfl⟩⟩

theorem witness_FaultHasNoEffect : ∃ t f, hostStep (start 16 []) = (t, .failed f) := ⟨_, _, rfl⟩

theorem witness_StepKeepsTheInvariant :
    (start 16 [(16, 0xD001)] 0x00AA).Inv ∧ ∃ t, step (start 16 [(16, 0xD001)] 0x00AA) = .next t :=
  ⟨by decide, ⟨_, rfl⟩⟩

/-- One and two words, at 0 and at 4094. -/
theorem witness_PlacedInstructionIsRunNext :
    (State.reset.mem.wf = true ∧ State.reset.iar.toNat < 4095 ∧ decodeTableWord 16 0x1000 = some .nop) ∧
      ((sample 4094).mem.wf = true ∧ (sample 4094).iar.toNat < 4095 ∧
        decodeTableWord 32 0x00C8C480 = some (.ldLong none true 200)) := by decide

theorem witness_HardResetGivesThePowerOnState : inRange 0 ∧ inRange 4095 := by decide

/-- The whole span in memory at both ends, no words at the last address; the start outside, the span outside. -/
theorem witness_LoadProgramLoadsTheWholeSpan :
    State.reset.mem.wf = true ∧
    (inRange 4095 ∧ ([7] : List Int).length ≥ 1 ∧ (4095 : Int) + ([7] : List Int).length - 1 ≤ 4095) ∧
    (inRange 4095 ∧ ¬ ([] : List Int).length ≥ 1) ∧ (¬ inRange (-1) ∧ ¬ inRange 4096) ∧
    (inRange 4095 ∧ ([7, 8] : List Int).length ≥ 1 ∧ (4095 : Int) + ([7, 8] : List Int).length - 1 > 4095) := by decide

/-- A machine that branches to itself (Scenario F). -/
def loops : State := start 0 [(0, 0x4C00)]

theorem witness_RunRepeatsStep :
    (0 : Int) < 1 ∧ halted.halted = true ∧ (∃ f, step (start 16 []) = .fault f) ∧
    (∃ t, step (start 16 [(16, 0x3000)]) = .next t ∧ t.halted = true) ∧
    (∃ t, step loops = .next t ∧ t.halted = false) ∧ (2 : Int) > 1 :=
  ⟨by decide, rfl, ⟨_, rfl⟩, ⟨_, rfl, rfl⟩, ⟨_, rfl, rfl⟩, by decide⟩

theorem witness_RunContinuesAfterTheLimit :
    ∃ t, run 1 loops = (t, .failed (.cycleLimitExceeded 1)) := ⟨_, rfl⟩

theorem witness_SnapshotIsACopyOfTheState : snapshot (sample 0) = snapshot (sample 0) := rfl

theorem witness_LimitCountsInstructions : (1 : Int) ≥ 1 ∧ (run 1 loops).2 = .failed (.cycleLimitExceeded 1) :=
  ⟨by decide, by rfl⟩

theorem witness_NormalEndIsAtAWait : endsNormally 1 (top 0x3000) ∧ (top 0x3000).halted = false ∧
    (run 1 (top 0x3000)).1.halted = true := ⟨by rfl, rfl, by decide⟩

theorem witness_RunKeepsTheInvariant : loops.Inv := by decide

/-- The ends of R124's ranges with and without a tag, and just beyond them; a literal and a known label. -/
theorem witness_AssembledWordsDecodeToTheStatement :
    (ShortOperand (.indexed .ld none) 0 ∧ ShortOperand (.indexed .ld none) 127 ∧
      ShortOperand (.move .ldx .xr3) (-128) ∧ ShortOperand (.move .stx .xr1) 127) ∧
    (¬ ShortOperand (.indexed .ld none) (-1) ∧ ¬ ShortOperand (.indexed .ld none) 128 ∧
      ¬ ShortOperand (.move .ldx .xr3) (-129)) ∧
    (AcceptedOperand (.indexed .bsi none) 4095 ∧ AcceptedOperand (.move .ldx .xr3) (-32768) ∧
      AcceptedOperand (.indexed .a (some .xr2)) 65535) ∧
    (¬ AcceptedOperand (.indexed .bsi none) 4096 ∧ ¬ AcceptedOperand (.move .ldx .xr3) 65536) ∧
    Expr.value [] (.literal 127) = some 127 ∧ Expr.value [(['x'], 4096)] (.label ['x']) = some 4096 := by
  simp [ShortOperand, AcceptedOperand, hasTag, Expr.value]

/-- A label pass 1 does not know, nowhere or later, under both policies, at the ends of the two ranges. -/
theorem witness_ForwardReferenceTakesThePolicysLength :
    Expr.value [] (.label ['x']) = none ∧
    (∀ len : Length, statementLength (fun _ _ => len) [] (.reference (.indexed .ld none) .auto (.label ['x'])) = len) ∧
    Expr.value [(['x'], 127)] (.label ['x']) = some 127 ∧ ShortOperand (.indexed .ld none) 127 ∧
    Expr.value [(['x'], 128)] (.label ['x']) = some 128 ∧ ¬ ShortOperand (.indexed .ld none) 128 ∧
    Expr.value [(['x'], 4095)] (.label ['x']) = some 4095 ∧ AcceptedOperand (.indexed .ld none) 4095 ∧
    Expr.value [(['x'], 4096)] (.label ['x']) = some 4096 ∧ ¬ AcceptedOperand (.indexed .ld none) 4096 := by
  simp [ShortOperand, AcceptedOperand, hasTag, Expr.value, statementLength]

theorem witness_PassesAgreeOnLengths :
    (∃ ws, emit [(['x'], 200)] (statementLength (fun _ _ => .long) [] (.reference (.indexed .ld none) .auto
      (.label ['x']))) (.reference (.indexed .ld none) .auto (.label ['x'])) = .ok ws ∧ ws.length = 2) ∧
    ∃ ws, emit [] (statementLength (fun _ _ => .long) [] (.data (.literal 1))) (.data (.literal 1)) = .ok ws :=
  ⟨⟨_, rfl, rfl⟩, ⟨_, rfl⟩⟩

/-- Start addresses inside and outside, at the ends; a source that gives a Program. -/
theorem witness_AssembleAnswersAProgramOrDiagnostics :
    inRange 0 ∧ inRange 4095 ∧ ¬ inRange (-1) ∧ ¬ inRange 4096 ∧
      assembled "WAIT" 4095 = .program ⟨[(4095, 0x3000#16)], 4095⟩ := by decide

/-- A line that is wrong, a second label, an ORG of an unknown label, a statement that pass 2 cannot emit. -/
theorem witness_DiagnosticsAreAccumulated :
    parseSource hexPrefix ['X'] = [⟨1, none, .wrong 1 .unknownMnemonic⟩] ∧
    parseSource hexPrefix "x:\nx:".toList = [⟨1, some (['x'], 1), .empty⟩] ++ [⟨2, some (['x'], 1), .empty⟩] ∧
    parseSource hexPrefix "ORG y".toList = [⟨1, none, .statement 1 (.org (.label ['y']))⟩] ∧
    Expr.value [] (.label ['y']) = none ∧
    (sourcePass1 hexPrefix (fun _ _ => .long) "SLA 64".toList 0).placed.map (fun st => (st.length, st.statement)) =
      [(.short, .shift .sla (.literal 64))] ∧
    emit [] .short (.shift .sla (.literal 64)) = .error .operandOutOfRange ∧
    problems (assembled "SLA 64" 0) = [(.operandOutOfRange, 1, 1)] :=
  ⟨by rfl, by rfl, by rfl, rfl, by rfl, by rfl, by decide⟩

end Sys2Proof.Tests
end

section
/-! SUPPORT. What an instruction reads and writes: one theorem over all instructions says that `exec` looks at memory,
ACC and IAR alone (BSC at the flags too) and which components of the state it writes (10_state.md R20–R35). Frames and
non-interference follow from it. -/

namespace Sys2Proof.Machine

open Sys2Proof.Claims

/-! ### Outcomes under a change of state -/

/-- An outcome with its next state changed. -/
def mapNext (φ : State → State) : Result → Result
  | .next s => .next (φ s)
  | .fault f => .fault f
  | .refused r => .refused r

@[simp] theorem mapNext_next (φ : State → State) (s : State) : mapNext φ (.next s) = .next (φ s) := rfl
@[simp] theorem mapNext_fault (φ : State → State) (f : Fault) : mapNext φ (.fault f) = .fault f := rfl
@[simp] theorem mapNext_refused (φ : State → State) (r : Refusal) : mapNext φ (.refused r) = .refused r := rfl

theorem finish_bind_map {α : Type} {x : Except Fault α} {g g' : α → Except Fault State} {φ : State → State}
    (h : ∀ a, finish (g' a) = mapNext φ (finish (g a))) : finish (x >>= g') = mapNext φ (finish (x >>= g)) := by
  cases x with
  | ok a => exact h a
  | error f => rfl

theorem finish_writeIar_map {v : Int} {s s' : State} {φ : State → State}
    (h : ∀ a, s'.setIar a = φ (s.setIar a)) : finish (writeIar v s') = mapNext φ (finish (writeIar v s)) := by
  by_cases hv : inRange v
  · rw [writeIar_in _ hv, writeIar_in _ hv, h]; rfl
  · rw [writeIar_out _ hv, writeIar_out _ hv]; rfl

theorem finish_advance_map {len : Nat} {s s' : State} {φ : State → State} (hiar : s'.iar = s.iar)
    (h : ∀ a, s'.setIar a = φ (s.setIar a)) : finish (advance len s') = mapNext φ (finish (advance len s)) := by
  rw [advance, advance, fallThrough, fallThrough, hiar]
  exact finish_writeIar_map h

/-! ### What an instruction reads and writes -/

/-- The instruction that writes `halted` (R34). -/
def setsHalted : Instr → Bool
  | .wait => true
  | _ => false

theorem setsHalted_eq_false {i : Instr} (h : i ≠ .wait) : setsHalted i = false := by
  cases i with
  | wait => exact absurd rfl h
  | _ => rfl

/-- The state `s` with the components that `i` writes, and IAR, taken from `t` (R22, R23, R32, R34, R35, R60). -/
def written (i : Instr) (s t : State) : State where
  mem := bif (storedAddress i s).isSome then t.mem else s.mem
  acc := bif writesAcc i then t.acc else s.acc
  ext := s.ext
  iar := t.iar
  carry := bif definesCarry i then t.carry else s.carry
  overflow := bif definesOverflow i then t.overflow else s.overflow
  sign := bif (definedResult i t).isSome then t.sign else s.sign
  zero := bif (definedResult i t).isSome then t.zero else s.zero
  halted := bif setsHalted i then t.halted else s.halted
  instrCount := s.instrCount
  cycleCount := s.cycleCount

/-- Two states with the same memory, ACC and IAR. -/
structure SameInputs (s s' : State) : Prop where
  mem : s'.mem = s.mem
  acc : s'.acc = s.acc
  iar : s'.iar = s.iar

/-- What `i` writes depends on memory, ACC and IAR alone, and for BSC on its condition: on two states that agree there it
does the same, and what it does not write stays that of its own state. With both states the same this is the frame. -/
theorem exec_of_sameInputs {i : Instr} {s s' : State} (h : SameInputs s s')
    (hflags : notBranchOnCondition i = true ∨ ∀ c, condAny c s' = condAny c s) :
    exec i s' = mapNext (written i s') (exec i s) := by
  obtain ⟨mem, acc, ext, iar, carry, overflow, sign, zero, halted, instrs, cycles⟩ := s
  obtain ⟨hmem, hacc, hiar⟩ := h
  subst hmem hacc hiar
  cases i with
  | nop | sla _ | sra _ | wait =>
    simp only [exec, execNop, execSla, execSra, execWait]
    exact finish_advance_map rfl fun _ => rfl
  | bsiShort _ _ | bsiLong _ _ _ =>
    exact finish_bind_map fun _ => finish_bind_map fun _ => finish_writeIar_map fun _ => rfl
  | bscShort c =>
    have hc := (hflags.resolve_left Bool.false_ne_true) c
    show finish (skipOnCondition c _) = mapNext _ (finish (skipOnCondition c _))
    rw [skipOnCondition, skipOnCondition, hc]
    split
    · exact finish_bind_map fun _ => finish_writeIar_map fun _ => rfl
    · exact finish_advance_map rfl fun _ => rfl
  | bscLong t ia c addr =>
    have hc := (hflags.resolve_left Bool.false_ne_true) c
    refine finish_bind_map fun ea => ?_
    rw [hc]
    split
    · exact finish_advance_map rfl fun _ => rfl
    · exact finish_writeIar_map fun _ => rfl
  | _ => exact finish_bind_map fun _ => finish_advance_map rfl fun _ => rfl

/-! ### Frames -/

theorem written_self {i : Instr} {s t : State} (h : exec i s = .next t) : written i s t = t := by
  have hs := exec_of_sameInputs (i := i) (s := s) ⟨rfl, rfl, rfl⟩ (.inr fun _ => rfl)
  rw [h, mapNext_next, Host.Outcome.next.injEq] at hs
  exact hs.symm

section
variable {i : Instr} {s t : State} (h : exec i s = .next t)
include h

theorem exec_ext : t.ext = s.ext := by rw [← written_self h]; rfl
theorem exec_instrCount : t.instrCount = s.instrCount := by rw [← written_self h]; rfl
theorem exec_cycleCount : t.cycleCount = s.cycleCount := by rw [← written_self h]; rfl

theorem exec_acc (hw : writesAcc i = false) : t.acc = s.acc := by
  rw [← written_self h]; simp only [written, hw, cond_false]

theorem exec_mem (hw : storedAddress i s = none) : t.mem = s.mem := by
  rw [← written_self h]; simp only [written, hw, Option.isSome_none, cond_false]

theorem exec_halted (hw : i ≠ .wait) : t.halted = s.halted := by
  rw [← written_self h]; simp only [written, setsHalted_eq_false hw, cond_false]

theorem exec_carry (hw : definesCarry i = false) : t.carry = s.carry := by
  rw [← written_self h]; simp only [written, hw, cond_false]

theorem exec_overflow (hw : definesOverflow i = false) : t.overflow = s.overflow := by
  rw [← written_self h]; simp only [written, hw, cond_false]

theorem exec_signZero (hw : definedResult i t = none) : t.sign = s.sign ∧ t.zero = s.zero := by
  have ht := written_self h
  constructor
  · simpa only [written, hw, Option.isSome_none, cond_false] using (congrArg State.sign ht).symm
  · simpa only [written, hw, Option.isSome_none, cond_false] using (congrArg State.zero ht).symm

theorem exec_wf (hm : s.mem.wf = true) : t.mem.wf = true := by
  cases i with
  | stoShort _ _ | stoLong _ _ _ =>
    obtain ⟨m, hw, -, rfl⟩ := storeAcc_eq_ok.mp (finish_eq_next.mp h)
    exact writeOperand_wf hm hw
  | stxShort _ _ | stxLong _ _ _ =>
    obtain ⟨m, hw, -, rfl⟩ := storeIndex_eq_ok.mp (finish_eq_next.mp h)
    exact writeOperand_wf hm hw
  | bsiShort _ _ | bsiLong _ _ _ =>
    obtain ⟨ea, -, m, hw, -, rfl⟩ := branchAndStore_eq_ok.mp (finish_eq_next.mp h)
    exact memWrite_wf hm hw
  | ldxShort x _ | ldxLong x _ _ =>
    obtain ⟨v, -, -, rfl⟩ := loadIndex_eq_ok.mp (finish_eq_next.mp h)
    exact writeXr_wf hm x v
  | _ => rw [exec_mem h rfl]; exact hm

end

theorem exec_wait_halted {s t : State} (h : exec .wait s = .next t) : t.halted = true := by
  obtain ⟨-, rfl⟩ := advance_eq_ok.mp (finish_eq_next.mp h)
  rfl

/-! ### Shifts -/

theorem exec_sla (n : BitVec 6) (s : State) : exec (.sla n) s = execSla n s := rfl

theorem exec_sra (n : BitVec 6) (s : State) : exec (.sra n) s = execSra n s := rfl

theorem execSla_eq_next {n : BitVec 6} {s u : State} : execSla n s = .next u ↔ inRange (fallThrough s 1) ∧
    u = (((s.setCarry (slaCarry s.acc n.toNat)).defineSignZero (slaResult s.acc n.toNat)).setAcc
      (slaResult s.acc n.toNat)).setIar (BitVec.ofInt 12 (fallThrough s 1)) := by
  simp only [execSla, finish_eq_next, advance_eq_ok]; rfl

theorem execSra_eq_next {n : BitVec 6} {s u : State} : execSra n s = .next u ↔ inRange (fallThrough s 1) ∧
    u = ((s.defineSignZero (sraResult s.acc n.toNat)).setAcc (sraResult s.acc n.toNat)).setIar
      (BitVec.ofInt 12 (fallThrough s 1)) := by
  simp only [execSra, finish_eq_next, advance_eq_ok]; rfl

/-! ### Operands, in the terms of the claims -/

theorem indexValue_eq_index (m : Memory) (t : Tag) : indexValue m t = index m t := by
  rcases t with _ | _ | _ | _ <;> rfl

theorem indexed_eq_indexedAddress (m : Memory) (t : Tag) (o : Operand) : indexed m t o = indexedAddress m t o := by
  cases o <;> rw [indexed, indexedAddress, indexValue_eq_index] <;> rfl

theorem effective_of_resolve {m : Memory} {t : Tag} {o : Operand} {ea : Int} (h : resolve m t o = .ok ea) :
    ea = effective m t o := by
  rcases o with disp | ⟨_ | _, addr⟩
  · exact (Except.ok.inj h).symm.trans (indexed_eq_indexedAddress m t _)
  · exact (Except.ok.inj h).symm.trans (indexed_eq_indexedAddress m t _)
  · obtain ⟨p, hp, hea⟩ := bind_eq_ok.mp h
    obtain ⟨-, rfl⟩ := memRead_eq_ok.mp hp
    rw [← Except.ok.inj hea, indexed_eq_indexedAddress]
    rfl

theorem operandWord_of_readOperand {s : State} {t : Tag} {o : Operand} {v : Word}
    (h : readOperand s.mem t o = .ok v) : v = operandWord s t o := by
  obtain ⟨ea, hea, -, rfl⟩ := readOperand_eq_ok.mp h
  rw [effective_of_resolve hea, operandWord]

/-! ### The flags -/

theorem signedOverflow_eq_outsideSigned (n : Int) : signedOverflow n = outsideSigned n :=
  (Bool.decide_or _ _).symm

theorem addCarry_eq (a x : Word) : addCarry a x = decide (a.toNat + x.toNat ≥ 65536) := by
  refine decide_eq_decide.mpr ?_
  simp only [exactSum, Word.uint]
  omega

theorem subCarry_eq (a x : Word) : subCarry a x = decide (a.toNat < x.toNat) := by
  refine decide_eq_decide.mpr ?_
  simp only [Word.uint]
  omega

theorem addToAcc_flags {t : Tag} {o : Operand} {s u : State} (h : addToAcc t o s = .ok u) :
    u.carry = decide (s.acc.toNat + (operandWord s t o).toNat ≥ 65536) ∧
      u.overflow = outsideSigned (s.acc.toInt + (operandWord s t o).toInt) := by
  obtain ⟨v, hv, -, rfl⟩ := addToAcc_eq_ok.mp h
  rw [← operandWord_of_readOperand hv]
  exact ⟨addCarry_eq _ _, signedOverflow_eq_outsideSigned _⟩

theorem subtractFromAcc_flags {t : Tag} {o : Operand} {s u : State} (h : subtractFromAcc t o s = .ok u) :
    u.carry = decide (s.acc.toNat < (operandWord s t o).toNat) ∧
      u.overflow = outsideSigned (s.acc.toInt - (operandWord s t o).toInt) := by
  obtain ⟨v, hv, -, rfl⟩ := subtractFromAcc_eq_ok.mp h
  rw [← operandWord_of_readOperand hv]
  exact ⟨subCarry_eq _ _, signedOverflow_eq_outsideSigned _⟩

section
variable {i : Instr} {s t : State} (h : exec i s = .next t)
include h

theorem exec_definedCarry : t.carry = (definedCarry i s).getD s.carry := by
  cases i with
  | aShort _ _ | aLong _ _ _ => exact (addToAcc_flags (finish_eq_next.mp h)).1
  | sShort _ _ | sLong _ _ _ => exact (subtractFromAcc_flags (finish_eq_next.mp h)).1
  | sla _ =>
    rw [exec_sla, execSla_eq_next] at h
    obtain ⟨-, rfl⟩ := h
    rfl
  | _ => exact exec_carry h rfl

theorem exec_definedOverflow : t.overflow = (definedOverflow i s).getD s.overflow := by
  cases i with
  | aShort _ _ | aLong _ _ _ => exact (addToAcc_flags (finish_eq_next.mp h)).2
  | sShort _ _ | sLong _ _ _ => exact (subtractFromAcc_flags (finish_eq_next.mp h)).2
  | _ => exact exec_overflow h rfl

theorem exec_definedSignZero (hm : s.mem.wf = true) {r : Word} (hr : definedResult i t = some r) :
    t.sign = r.getLsbD 15 ∧ t.zero = decide (r = 0#16) := by
  cases i with
  | sla _ =>
    rw [exec_sla, execSla_eq_next] at h
    obtain ⟨-, rfl⟩ := h
    cases hr
    exact ⟨rfl, rfl⟩
  | sra _ =>
    rw [exec_sra, execSra_eq_next] at h
    obtain ⟨-, rfl⟩ := h
    cases hr
    exact ⟨rfl, rfl⟩
  | ldxShort x _ | ldxLong x _ _ =>
    obtain ⟨v, -, -, rfl⟩ := loadIndex_eq_ok.mp (finish_eq_next.mp h)
    have hv : v = r := (Memory.word_setWord_same hm (XReg.address_lt x) v).symm.trans (Option.some.inj hr)
    exact hv ▸ ⟨rfl, rfl⟩
  | ldShort _ _ | ldLong _ _ _ =>
    obtain ⟨v, -, -, rfl⟩ := loadAcc_eq_ok.mp (finish_eq_next.mp h)
    cases hr
    exact ⟨rfl, rfl⟩
  | aShort _ _ | aLong _ _ _ =>
    obtain ⟨v, -, -, rfl⟩ := addToAcc_eq_ok.mp (finish_eq_next.mp h)
    cases hr
    exact ⟨rfl, rfl⟩
  | sShort _ _ | sLong _ _ _ =>
    obtain ⟨v, -, -, rfl⟩ := subtractFromAcc_eq_ok.mp (finish_eq_next.mp h)
    cases hr
    exact ⟨rfl, rfl⟩
  | andShort _ _ | andLong _ _ _ =>
    obtain ⟨v, -, -, rfl⟩ := andAcc_eq_ok.mp (finish_eq_next.mp h)
    cases hr
    exact ⟨rfl, rfl⟩
  | orShort _ _ | orLong _ _ _ =>
    obtain ⟨v, -, -, rfl⟩ := orAcc_eq_ok.mp (finish_eq_next.mp h)
    cases hr
    exact ⟨rfl, rfl⟩
  | _ => cases hr

end

theorem storedAddress_withFlagsOf (i : Instr) (f s : State) :
    storedAddress i (withFlagsOf f s) = storedAddress i s := rfl

theorem withFlagsOf_written (i : Instr) (f s t : State) :
    withFlagsOf f (written i (withFlagsOf f s) t) = withFlagsOf f (written i s t) := by
  simp only [written, storedAddress_withFlagsOf]
  rfl

theorem exec_withFlagsOf {i : Instr} (hi : notBranchOnCondition i = true) (f s : State) :
    exec i (withFlagsOf f s) = mapNext (written i (withFlagsOf f s)) (exec i s) :=
  exec_of_sameInputs ⟨rfl, rfl, rfl⟩ (.inl hi)

end Sys2Proof.Machine
end

section
/-! SUPPORT. Which word decodes to WAIT, from what a row of the decode table can build (30_encoding.md R96). -/

namespace Sys2Proof.Machine

/-- The instructions that a first word can begin: a long one with any second word. -/
def FirstWordYields (i : Instr) : FirstWord → Prop
  | .invalid => False
  | .short j => j = i
  | .long complete => ∃ addr, complete addr = i

@[simp] theorem yields_short {i j : Instr} : FirstWordYields i (.short j) ↔ j = i := Iff.rfl

@[simp] theorem yields_long {i : Instr} {k : Word → Instr} : FirstWordYields i (.long k) ↔ ∃ addr, k addr = i := Iff.rfl

@[simp] theorem plain_holds (p m : Word) (b : Word → FirstWord) (w : Word) :
    (Row.plain p m b).holds w = true ↔ w &&& m = p := by simp [Row.holds, Row.plain]

@[simp] theorem plain_build (p m : Word) (b : Word → FirstWord) (w : Word) : (Row.plain p m b).build w = b w := rfl

@[simp] theorem shortForm_yields (p : Word) (make : Tag → BitVec 8 → Instr) (w : Word) (i : Instr) :
    FirstWordYields i ((Row.shortForm p make).build w) ↔ make (tagField w) (dispField w) = i := Iff.rfl

@[simp] theorem longForm_yields (p : Word) (make : Tag → Bool → Word → Instr) (w : Word) (i : Instr) :
    FirstWordYields i ((Row.longForm p make).build w) ↔ ∃ addr, make (tagField w) (iaField w) addr = i := Iff.rfl

@[simp] theorem shortIndexForm_yields (p : Word) (make : XReg → BitVec 8 → Instr) (w : Word) (i : Instr) :
    FirstWordYields i ((Row.shortIndexForm p make).build w) ↔ ∃ x, tagField w = some x ∧ make x (dispField w) = i := by
  simp only [Row.shortIndexForm, Row.tagged]
  cases tagField w <;> simp [FirstWordYields]

@[simp] theorem longIndexForm_yields (p : Word) (make : XReg → Bool → Word → Instr) (w : Word) (i : Instr) :
    FirstWordYields i ((Row.longIndexForm p make).build w) ↔
      ∃ x, tagField w = some x ∧ ∃ addr, make x (iaField w) addr = i := by
  simp only [Row.longIndexForm, Row.tagged]
  cases tagField w <;> simp [FirstWordYields]

/-- The rows other than WAIT's build other constructors; WAIT's mask covers the whole word. -/
theorem row_yields_wait : ∀ r ∈ decodeTable, ∀ w, r.holds w = true → FirstWordYields .wait (r.build w) →
    w = 0x3000#16 := by
  have hwait : ∀ w : Word, w &&& 0xFFFF#16 = 0x3000#16 → w = 0x3000#16 := fun w hw =>
    (BitVec.and_allOnes (x := w)).symm.trans hw
  simpa [decodeTable] using hwait

theorem decodeFirst_yields_wait {w : Word} (h : FirstWordYields .wait (decodeFirst w)) : w = 0x3000#16 := by
  unfold decodeFirst at h
  split at h
  · next r hr =>
    have hholds : r.holds w = true := by simpa using List.find?_some hr
    exact row_yields_wait r (List.mem_of_find?_eq_some hr) w hholds h
  · exact h.elim

theorem fetchInstr_yields {s : State} {i : Instr} (h : fetchInstr s = .ok i) :
    FirstWordYields i (decodeFirst (firstWord s)) := by
  obtain hd | ⟨complete, hd, -, hi⟩ := fetchInstr_eq_ok.mp h
  · exact hd ▸ rfl
  · exact hd ▸ ⟨_, hi⟩

theorem fetchInstr_eq_wait {s : State} : fetchInstr s = .ok .wait ↔ firstWord s = 0x3000#16 := by
  constructor
  · exact fun h => decodeFirst_yields_wait (fetchInstr_yields h)
  · intro h
    rw [fetchInstr_eq_ok, h]
    exact .inl rfl

end Sys2Proof.Machine
end

section
/-! SUPPORT. What a step and a run keep, and what a step does not read (10_state.md R23, R34, R35, R50). -/

namespace Sys2Proof.Machine

/-! ### Steps and runs -/

theorem step_keeps_inv {s t : State} (hs : s.Inv) (h : step s = .next t) : t.Inv := by
  obtain ⟨hwf, hcount⟩ := hs
  obtain ⟨-, i, u, -, hu, rfl⟩ := step_eq_next.mp h
  have hm := exec_wf hu hwf
  refine ⟨hm, ?_⟩
  rw [State.countStep_instrCount, State.countStep_cycleCount, exec_instrCount hu, exec_cycleCount hu, hcount]

theorem runLoop_keeps_inv (maxCycles : Int) {left : Nat} {s : State} (hs : s.Inv) :
    (runLoop maxCycles left s).1.Inv := by
  induction left generalizing s with
  | zero => exact hs
  | succ left ih =>
    rw [runLoop]
    split
    · next t ht =>
      have hinv := step_keeps_inv hs ht
      split
      · exact hinv
      · exact ih hinv
    · exact hs
    · exact hs

theorem run_keeps_inv (n : Int) {s : State} (hs : s.Inv) : (run n s).1.Inv := by
  unfold run
  split
  · exact hs
  · split
    · exact hs
    · exact runLoop_keeps_inv n hs

/-! ### EXT and the counters are not read -/

/-- The state with other contents of EXT and of the two counters. -/
def withExtAndCounters (e : Word) (m n : Nat) (s : State) : State :=
  { s with ext := e, instrCount := m, cycleCount := n }

theorem exec_withExtAndCounters (i : Instr) (e : Word) (m n : Nat) (s : State) :
    exec i (withExtAndCounters e m n s) = mapNext (withExtAndCounters e m n) (exec i s) := by
  rw [exec_of_sameInputs (s := s) (s' := withExtAndCounters e m n s) ⟨rfl, rfl, rfl⟩ (.inr fun _ => rfl)]
  cases h : exec i s with
  | next t => exact congrArg (fun u => mapNext (withExtAndCounters e m n) (.next u)) (written_self h)
  | fault f => rfl
  | refused r => rfl

theorem step_withExtAndCounters (e : Word) (m n : Nat) (s : State) :
    step (withExtAndCounters e m n s) = mapNext (withExtAndCounters e (m + 1) (n + 1)) (step s) := by
  have hfetch : fetchInstr (withExtAndCounters e m n s) = fetchInstr s := rfl
  have hhalted : (withExtAndCounters e m n s).halted = s.halted := rfl
  rw [step, step, hfetch, hhalted]
  split
  · rfl
  · split
    · rfl
    · next i _ =>
      rw [exec_withExtAndCounters]
      cases exec i s <;> rfl

theorem step_ext {s t : State} (h : step s = .next t) : t.ext = s.ext := by
  obtain ⟨-, i, u, -, hu, rfl⟩ := step_eq_next.mp h
  rw [State.countStep_ext, exec_ext hu]

theorem step_counters {s t : State} (h : step s = .next t) :
    t.instrCount = s.instrCount + 1 ∧ t.cycleCount = s.cycleCount + 1 := by
  obtain ⟨-, i, u, -, hu, rfl⟩ := step_eq_next.mp h
  rw [State.countStep_instrCount, State.countStep_cycleCount, exec_instrCount hu, exec_cycleCount hu]
  exact ⟨rfl, rfl⟩

theorem step_halted {s t : State} (h : step s = .next t) : t.halted = true ↔ s.mem.word s.iar.toNat = 0x3000#16 := by
  obtain ⟨hs, i, u, hi, hu, rfl⟩ := step_eq_next.mp h
  have hword : firstWord s = 0x3000#16 ↔ i = .wait := by
    rw [← fetchInstr_eq_wait, hi, Except.ok.injEq]
  refine Iff.trans ?_ hword.symm
  rw [State.countStep_halted]
  constructor
  · intro ht
    by_contra hne
    rw [exec_halted hu hne, hs] at ht
    cases ht
  · rintro rfl
    exact exec_wait_halted hu

end Sys2Proof.Machine
end

section
/-! SUPPORT. The host's operations between steps: when they answer a state and which (60_exceptions.md R240). -/

namespace Sys2Proof.Machine

/-! ### Writes, loads and steps -/

theorem writeMemory_eq_ok {a v : Int} {s t : State} :
    writeMemory a v s = .ok t ↔ inRange a ∧ t = s.setMem (s.mem.setWord a.toNat (trunc16 v)) := by
  simp only [writeMemory, bind_eq_ok, memWrite_eq_ok, Except.ok.injEq]
  constructor
  · rintro ⟨m, ⟨ha, rfl⟩, rfl⟩
    exact ⟨ha, rfl⟩
  · rintro ⟨ha, rfl⟩
    exact ⟨_, ⟨ha, rfl⟩, rfl⟩

theorem loadProgram_eq_ok {a : Int} {ws : List Int} {s t : State} : loadProgram a ws s = .ok t ↔
    ∃ m, loadWords a ws s.mem = .ok m ∧ inRange a ∧ t = (s.setMem m).setIar (BitVec.ofInt 12 a) := by
  simp only [loadProgram, bind_eq_ok, writeIar_eq_ok]

theorem hostStep_completed {s t : State} (h : hostStep s = (t, .completed)) : step s = .next t := by
  unfold hostStep at h
  split at h
  · next u hu => rw [hu, (Prod.mk.inj h).1]
  · cases h
  · cases h

theorem hostStep_failed {s t : State} {f : Fault} (h : hostStep s = (t, .failed f)) : t = s := by
  unfold hostStep at h
  split at h
  · cases h
  · exact (Prod.mk.inj h).1.symm
  · cases h

/-! ### Index registers -/

theorem readOperand_short_untagged (m : Memory) (disp : BitVec 8) :
    readOperand m none (.short disp) = memRead m disp.toInt := by
  simp only [readOperand, resolve_short, indexed, Operand.base, indexValue, Int.add_zero, bind_ok]

theorem XReg.address_inRange (x : XReg) : inRange (XReg.address x : Int) := by cases x <;> decide

theorem loadIndex_reads_back {x : XReg} {o : Operand} {s t : State} {v : Word} (hm : s.mem.wf = true)
    (hv : readOperand s.mem none o = .ok v) (h : loadIndex x o s = .ok t) :
    readMemory (XReg.address x) t = .ok v := by
  obtain ⟨v', hv', -, rfl⟩ := loadIndex_eq_ok.mp h
  cases hv.symm.trans hv'
  exact (memRead_setWord hm (XReg.address_inRange x) v _).trans (if_pos rfl)

theorem readXr_of_writeMemory {x : XReg} {s t : State} {value : Int} (hm : s.mem.wf = true)
    (h : writeMemory (XReg.address x) value s = .ok t) : readXr t.mem x = trunc16 value := by
  obtain ⟨-, rfl⟩ := writeMemory_eq_ok.mp h
  exact Memory.word_setWord_same hm (XReg.address_lt x) _

/-! ### Snapshots -/

/-- The state that a snapshot is a copy of. -/
def stateOf (p : Snapshot) : State where
  mem := p.mem
  acc := p.acc
  ext := p.ext
  iar := p.iar
  carry := p.carry
  overflow := p.overflow
  sign := p.sign
  zero := p.zero
  halted := p.halted
  instrCount := p.instrCount
  cycleCount := p.cycleCount

theorem stateOf_snapshot : Function.LeftInverse stateOf snapshot := fun _ => rfl

end Sys2Proof.Machine
end

section
/-! The settled statements about the state (10_state.md). -/

namespace Sys2Proof.Proofs

open Sys2Proof.Machine Sys2Proof.Claims

/-- Settles O43: an instruction's writes to memory keep the canonical form, and a completed step adds 1 to each counter. -/
theorem stepKeepsTheInvariant : Obligations.StepKeepsTheInvariant :=
  fun _ _ => step_keeps_inv

/-- Settles O53, by induction on the limit of the run's loop, from the step. -/
theorem runKeepsTheInvariant : Obligations.RunKeepsTheInvariant :=
  fun _ n => run_keeps_inv n

/-- Settles O9: the getters read the words at 1 to 3, so a write there is read back through either path. -/
theorem indexRegistersAreMemoryWords : Obligations.IndexRegistersAreMemoryWords := by
  refine ⟨fun s => ?_, fun s t value hm => ?_, fun s t x disp v hm hv h => ?_⟩
  · exact ⟨(memRead_in s.mem (XReg.address_inRange .xr1)).symm, (memRead_in s.mem (XReg.address_inRange .xr2)).symm,
      (memRead_in s.mem (XReg.address_inRange .xr3)).symm⟩
  · exact ⟨readXr_of_writeMemory (x := .xr1) hm, readXr_of_writeMemory (x := .xr2) hm,
      readXr_of_writeMemory (x := .xr3) hm⟩
  · exact loadIndex_reads_back hm ((readOperand_short_untagged _ _).trans hv) (finish_eq_next.mp h)

/-- Settles O31: a flag has the value of its column where the instruction defines it, and its frame elsewhere. -/
theorem flagTable : Obligations.FlagTable := fun _ _ _ hm h =>
  ⟨exec_definedCarry h, exec_definedOverflow h, fun _ => exec_definedSignZero h hm, exec_signZero h⟩

/-- Settles O32, from the components each instruction writes. -/
theorem registerFrame : Obligations.RegisterFrame := fun _ _ _ h =>
  ⟨exec_ext h, exec_instrCount h, exec_cycleCount h, exec_acc h, exec_halted h, exec_mem h⟩

/-- Settles O34: on a state with other flags the instruction writes the same components with the same values. -/
theorem onlyBscReadsTheFlags : Obligations.OnlyBscReadsTheFlags := by
  refine ⟨fun i s f t hi h => ?_, fun i s f e hi h => ?_, fun s => ⟨rfl, rfl, rfl, rfl, rfl⟩⟩
  · refine ⟨written i (withFlagsOf f s) t, ?_, ?_, fun hc => ?_, fun ho => ?_, fun hr => ?_⟩
    · rw [exec_withFlagsOf hi, h, mapNext_next]
    · rw [withFlagsOf_written, written_self h]
    · simp only [written, hc, cond_true]
    · simp only [written, ho, cond_true]
    · simp only [written, Option.isSome_iff_ne_none.mpr hr, cond_true, and_self]
  · rw [exec_withFlagsOf hi, h, mapNext_fault]

/-- Settles O35: a step commutes with a change of EXT. -/
theorem extIsNeitherReadNorWritten : Obligations.ExtIsNeitherReadNorWritten := by
  refine ⟨fun s t e h => ?_, fun s e f h => ?_, fun s => ⟨rfl, rfl, rfl⟩, fun s t a v h => ?_, fun s t a ws h => ?_⟩
  · obtain ⟨hinstr, hcycle⟩ := step_counters h
    have hstep := step_withExtAndCounters e s.instrCount s.cycleCount s
    rw [h, mapNext_next, ← hinstr, ← hcycle] at hstep
    exact ⟨step_ext h, hstep⟩
  · have hstep := step_withExtAndCounters e s.instrCount s.cycleCount s
    rwa [h] at hstep
  · obtain ⟨-, rfl⟩ := writeMemory_eq_ok.mp h
    rfl
  · obtain ⟨m, -, -, rfl⟩ := loadProgram_eq_ok.mp h
    rfl

/-- Settles O40: of the words at IAR only 0x3000 is fetched as WAIT, and only WAIT writes `halted`. -/
theorem onlyWaitSetsHalted : Obligations.OnlyWaitSetsHalted := by
  refine ⟨fun s n hs hn => ⟨?_, ?_⟩, fun s t => step_halted, fun s => ⟨rfl, rfl⟩, fun s t a v h => ?_,
    fun s t a ws h => ?_⟩
  · rw [step, if_pos hs]
  · rw [run, if_neg (by omega), if_pos hs]
  · obtain ⟨-, rfl⟩ := writeMemory_eq_ok.mp h
    rfl
  · obtain ⟨m, -, -, rfl⟩ := loadProgram_eq_ok.mp h
    rfl

/-- Settles O41: a step commutes with a change of the counters, and adds 1 to each where it completes. -/
theorem countersCountCompletedSteps : Obligations.CountersCountCompletedSteps := by
  refine ⟨fun s t m n h => ?_, fun s m n f h => ?_, fun s => ⟨rfl, rfl⟩, fun s t h => ?_, fun s t f h => ?_⟩
  · have hstep := step_withExtAndCounters s.ext m n s
    rw [h, mapNext_next] at hstep
    rw [step_ext h]
    exact hstep
  · have hstep := step_withExtAndCounters s.ext m n s
    rwa [h] at hstep
  · exact step_counters (hostStep_completed h)
  · rw [hostStep_failed h]
    exact ⟨rfl, rfl⟩

/-- Settles O54: the state can be computed back from its snapshot. -/
theorem snapshotIsACopyOfTheState : Obligations.SnapshotIsACopyOfTheState :=
  ⟨fun _ => rfl, fun _ _ h => stateOf_snapshot.injective h⟩

end Sys2Proof.Proofs
end

section
/-! SUPPORT. Writes of memory seen through `memRead`, the one word an instruction stores, and the fetch of placed words
(20_memory.md R52, R53, R60, R70; 30_encoding.md R110). -/

namespace Sys2Proof.Machine

open Sys2Proof.Claims

/-! ### Reads and writes of memory -/

theorem toNat_trunc16 (n : Int) : ((trunc16 n).toNat : Int) = n % 65536 := by
  rw [trunc16, BitVec.toNat_ofInt, Int.toNat_of_nonneg (Int.emod_nonneg _ (by decide))]
  rfl

/-- Unlike the read of the word written, this needs no canonical form. -/
theorem memRead_setWord_other (m : Memory) {addr b : Int} (ha : inRange addr) (hne : b ≠ addr) (v : Word) :
    memRead (m.setWord addr.toNat v) b = memRead m b := by
  by_cases hb : inRange b
  · have hcell : b.toNat ≠ addr.toNat := by omega
    rw [memRead_in _ hb, memRead_in _ hb, Memory.word_setWord_other m hcell]
  · rw [memRead_out _ hb, memRead_out _ hb]

theorem writeMemory_out {addr : Int} (value : Int) (s : State) (h : ¬ inRange addr) :
    writeMemory addr value s = .error (.addressOutOfRange addr) := by
  rw [writeMemory, memWrite_out _ _ h, bind_error]

/-! ### The word an instruction stores -/

theorem writeOperand_effective {m m' : Memory} {t : Tag} {o : Operand} {v : Word}
    (h : writeOperand m t o v = .ok m') :
    inRange (effective m t o) ∧ m' = m.setWord (effective m t o).toNat v := by
  obtain ⟨ea, hea, hin, rfl⟩ := writeOperand_eq_ok.mp h
  rw [← effective_of_resolve hea]
  exact ⟨hin, rfl⟩

theorem branchAndStore_mem {t : Tag} {o : Operand} {s u : State} (h : branchAndStore t o s = .ok u) :
    inRange (effective s.mem t o) ∧
      u.mem = s.mem.setWord (effective s.mem t o).toNat (trunc16 (fallThrough s o.len)) := by
  obtain ⟨ea, hea, m, hw, -, rfl⟩ := branchAndStore_eq_ok.mp h
  obtain ⟨hin, rfl⟩ := memWrite_eq_ok.mp hw
  rw [← effective_of_resolve hea]
  exact ⟨hin, rfl⟩

/-- An instruction that stores changes memory by one write of a word, at its stored address. -/
theorem exec_mem_of_storedAddress {i : Instr} {s t : State} {a : Int} (h : exec i s = .next t)
    (ha : storedAddress i s = some a) : inRange a ∧ ∃ v, t.mem = s.mem.setWord a.toNat v := by
  cases i with
  | stoShort _ _ | stoLong _ _ _ =>
    cases ha
    obtain ⟨m, hw, -, rfl⟩ := storeAcc_eq_ok.mp (finish_eq_next.mp h)
    obtain ⟨hin, rfl⟩ := writeOperand_effective hw
    exact ⟨hin, _, rfl⟩
  | stxShort _ _ | stxLong _ _ _ =>
    cases ha
    obtain ⟨m, hw, -, rfl⟩ := storeIndex_eq_ok.mp (finish_eq_next.mp h)
    obtain ⟨hin, rfl⟩ := writeOperand_effective hw
    exact ⟨hin, _, rfl⟩
  | bsiShort _ _ | bsiLong _ _ _ =>
    cases ha
    obtain ⟨hin, hmem⟩ := branchAndStore_mem (finish_eq_next.mp h)
    exact ⟨hin, _, hmem⟩
  | ldxShort x _ | ldxLong x _ _ =>
    cases ha
    obtain ⟨v, -, -, rfl⟩ := loadIndex_eq_ok.mp (finish_eq_next.mp h)
    exact ⟨XReg.address_inRange x, v, rfl⟩
  | _ => cases ha

/-! ### The fetch of placed words -/

theorem decode_two_words {w0 w1 : Word} {i : Instr} {rest : List Word} (h : decode [w0, w1] = .ok (i, rest)) :
    decodeFirst w0 = .short i ∨ ∃ complete, decodeFirst w0 = .long complete ∧ complete w1 = i := by
  cases hd : decodeFirst w0 with
  | invalid => simp [decode, hd] at h
  | short j =>
    obtain ⟨rfl, -⟩ : j = i ∧ [w1] = rest := by simpa [decode, hd] using h
    exact .inl rfl
  | long complete =>
    obtain ⟨rfl, -⟩ : complete w1 = i ∧ [] = rest := by simpa [decode, hd] using h
    exact .inr ⟨complete, rfl, rfl⟩

theorem decodeTableWord_eq_some {nbits w : Nat} {i : Instr} (h : decodeTableWord nbits w = some i) :
    ∃ rest, decode [(tableWords nbits w).1, (tableWords nbits w).2] = .ok (i, rest) := by
  unfold decodeTableWord at h
  split at h
  · next j rest hd => cases h; exact ⟨rest, hd⟩
  · cases h

section
variable {s : State} (hm : s.mem.wf = true) (w0 w1 : Word)

theorem placeWords_halted : (placeWords s w0 w1).halted = false := rfl

theorem placeWords_iar : (placeWords s w0 w1).iar = s.iar := rfl

theorem placeWords_mem (hi : s.iar.toNat < 4095) :
    (placeWords s w0 w1).mem = (s.mem.setWord s.iar.toNat w0).setWord (s.iar.toNat + 1) w1 := by
  have hroom : s.iar.toNat + 1 < Config.memWords := by unfold Config.memWords; omega
  simp only [placeWords, if_pos hroom, State.setHalted_mem, State.setMem_mem]

include hm

theorem firstWord_placeWords (hi : s.iar.toNat < 4095) : firstWord (placeWords s w0 w1) = w0 := by
  have hne : s.iar.toNat ≠ s.iar.toNat + 1 := by omega
  rw [firstWord, placeWords_iar, placeWords_mem w0 w1 hi, Memory.word_setWord_other _ hne,
    Memory.word_setWord_same hm s.iar.isLt]

theorem secondWord_placeWords (hi : s.iar.toNat < 4095) :
    (placeWords s w0 w1).mem.word (s.iar.toNat + 1) = w1 := by
  have hlt : s.iar.toNat + 1 < Config.memWords := by unfold Config.memWords; omega
  rw [placeWords_mem w0 w1 hi, Memory.word_setWord_same (Memory.wf_setWord hm s.iar.isLt w0) hlt]

theorem fetchInstr_placeWords (hi : s.iar.toNat < 4095) {i : Instr} {rest : List Word}
    (hd : decode [w0, w1] = .ok (i, rest)) : fetchInstr (placeWords s w0 w1) = .ok i := by
  rw [fetchInstr_eq_ok, firstWord_placeWords hm w0 w1 hi]
  obtain hshort | ⟨complete, hlong, hi'⟩ := decode_two_words hd
  · exact .inl hshort
  · have hnext : fallThrough (placeWords s w0 w1) 1 = (s.iar.toNat + 1 : Nat) := rfl
    have hin : inRange (fallThrough (placeWords s w0 w1) 1) := by rw [hnext]; omega
    refine .inr ⟨complete, hlong, hin, ?_⟩
    rw [hnext, Int.toNat_natCast, secondWord_placeWords hm w0 w1 hi, hi']

end

theorem step_of_fetchInstr {s : State} {i : Instr} (hs : s.halted = false) (hf : fetchInstr s = .ok i) :
    step s = retire (exec i s) := by
  simp [step, hs, hf]

end Sys2Proof.Machine
end

section
/-! The settled statements about memory (20_memory.md). -/

namespace Sys2Proof.Proofs

open Sys2Proof.Machine Sys2Proof.Claims

/-- Settles O7, from the two outcomes of an access. -/
theorem accessOutsideMemoryFaults : Obligations.AccessOutsideMemoryFaults := by
  refine fun m addr v => ⟨fun hlo hhi => ?_, fun hout => ?_⟩
  · have hin : inRange addr := ⟨hlo, hhi⟩
    exact ⟨memRead_in m hin, _, memWrite_in m v hin⟩
  · have hnot : ¬ inRange addr := by omega
    exact ⟨memRead_out m hnot, memWrite_out m v hnot⟩

/-- Settles O8: the host's write is one write of the truncated value into memory. -/
theorem hostWriteReadsBackTruncated : Obligations.HostWriteReadsBackTruncated := by
  refine fun s addr value hm => ⟨fun hin => ?_, writeMemory_out value s⟩
  refine ⟨_, trunc16 value, writeMemory_eq_ok.mpr ⟨hin, rfl⟩, rfl, ?_, toNat_trunc16 value, ?_⟩
  · exact memWrite_wf hm (memWrite_in s.mem _ hin)
  · exact memRead_setWord hm hin _

/-- Settles O33: an instruction with no stored address keeps memory, and any other one writes one word there. -/
theorem onlyTheStoredWordChanges : Obligations.OnlyTheStoredWordChanges := by
  intro i s t h b hb
  cases ha : storedAddress i s with
  | none => rw [exec_mem h ha]
  | some a =>
    obtain ⟨hin, v, hmem⟩ := exec_mem_of_storedAddress h ha
    have hne : b ≠ a := fun e => hb (e ▸ ha)
    rw [hmem, memRead_setWord_other _ hin hne]

/-- Settles O45: the fetch reads the placed words back, so it decodes what the table word decodes to. -/
theorem placedInstructionIsRunNext : Obligations.PlacedInstructionIsRunNext := by
  intro s nbits w i hm hi hw
  obtain ⟨rest, hd⟩ := decodeTableWord_eq_some hw
  exact step_of_fetchInstr (placeWords_halted _ _) (fetchInstr_placeWords hm _ _ hi hd)

end Sys2Proof.Proofs
end

section
/-! SUPPORT. The fields of a first word (30_encoding.md R81) under the masks of the decode table: which fields a mask
fixes, that a word which meets a pattern is the layout of its own fields, and that a layout meets its pattern. Each is
shown bit by bit. -/

namespace Sys2Proof

/-! ### Fields -/

/-- OP = w0[15:11] (R81). -/
def opField (w : Word) : BitVec 5 := w.extractLsb' 11 5

/-- MOD = w0[6:0] (R83). -/
def modField (w : Word) : BitVec 7 := w.extractLsb' 0 7

/-- The bits w0[7:6], which no shift and no short BSC uses (R91, R93). -/
def spareField (w : Word) : BitVec 2 := w.extractLsb' 6 2

theorem tagField_bits (w : Word) : (tagField w).bits = w.extractLsb' 8 2 := by
  refine BitVec.eq_of_getLsbD_eq fun i hi => ?_
  rw [BitVec.getLsbD_extractLsb', tagField]
  cases h9 : w.getLsbD 9 <;> cases h8 : w.getLsbD 8 <;> interval_cases i <;> simp_all [Tag.bits, XReg.bits]

theorem tagField_eq_none_iff {w : Word} : tagField w = none ↔ w.extractLsb' 8 2 = 0#2 := by
  rw [← tagField_bits]
  rcases tagField w with _ | _ | _ | _ <;> decide

theorem xreg_bits_of_tagField {w : Word} {x : XReg} (hx : tagField w = some x) : x.bits = w.extractLsb' 8 2 := by
  rw [← tagField_bits, hx]; rfl

/-- The bits of a condition set; bit 2 is E = 0 (R90). -/
theorem Conditions.getLsbD_bits (c : Conditions) (k : Nat) : c.bits.getLsbD k =
    if k = 0 then c.overflowOff else if k = 1 then c.carryOff else if k = 3 then c.plus
    else if k = 4 then c.minus else if k = 5 then c.z else false := by
  by_cases hk : k < 6
  · rcases c with ⟨_ | _, _ | _, _ | _, _ | _, _ | _⟩ <;> interval_cases k <;> rfl
  · rw [BitVec.getLsbD_of_ge _ _ (by omega)]
    grind

/-! ### The fields that a mask fixes -/

section
variable {w p : Word}

theorem and_shortMask_eq_iff (hp : p &&& 0x03FF#16 = 0#16) : w &&& 0xFC00#16 = p ↔
    opField w = opField p ∧ w.getLsbD 10 = p.getLsbD 10 := by
  simp only [opField, BitVec.eq_of_getLsbD_eq_iff, Nat.forall_lt_succ_left] at hp ⊢
  grind

theorem and_longMask_eq_iff (hp : p &&& 0x0380#16 = 0#16) : w &&& 0xFC7F#16 = p ↔
    opField w = opField p ∧ w.getLsbD 10 = p.getLsbD 10 ∧ modField w = modField p := by
  simp only [opField, modField, BitVec.eq_of_getLsbD_eq_iff, Nat.forall_lt_succ_left] at hp ⊢
  grind

theorem and_shiftMask_eq_iff (hp : p &&& 0x003F#16 = 0#16) : w &&& 0xFFC0#16 = p ↔
    opField w = opField p ∧ w.getLsbD 10 = p.getLsbD 10 ∧ w.extractLsb' 8 2 = p.extractLsb' 8 2 ∧
      spareField w = spareField p := by
  simp only [opField, spareField, BitVec.eq_of_getLsbD_eq_iff, Nat.forall_lt_succ_left] at hp ⊢
  grind

theorem and_skipMask_eq_iff (hp : p &&& 0x003B#16 = 0#16) : w &&& 0xFFC4#16 = p ↔
    opField w = opField p ∧ w.getLsbD 10 = p.getLsbD 10 ∧ w.extractLsb' 8 2 = p.extractLsb' 8 2 ∧
      spareField w = spareField p ∧ w.getLsbD 2 = p.getLsbD 2 := by
  simp only [opField, spareField, BitVec.eq_of_getLsbD_eq_iff, Nat.forall_lt_succ_left] at hp ⊢
  grind

theorem and_branchMask_eq_iff (hp : p &&& 0x03BB#16 = 0#16) : w &&& 0xFC44#16 = p ↔
    opField w = opField p ∧ w.getLsbD 10 = p.getLsbD 10 ∧ w.getLsbD 6 = p.getLsbD 6 ∧
      w.getLsbD 2 = p.getLsbD 2 := by
  simp only [opField, BitVec.eq_of_getLsbD_eq_iff, Nat.forall_lt_succ_left] at hp ⊢
  grind

theorem and_fullMask (w : Word) : w &&& 0xFFFF#16 = w := BitVec.and_allOnes

/-! ### A word that meets a pattern is a layout of its fields -/

theorem shortWord_of_and_shortMask (hp : p &&& 0x07FF#16 = 0#16) (h : w &&& 0xFC00#16 = p) :
    shortWord (opField p) (w.extractLsb' 8 2) (dispField w) = w := by
  subst h
  refine BitVec.eq_of_getLsbD_eq fun i hi => ?_
  replace hp := congrArg (·.getLsbD i) hp
  rw [getLsbD_shortWord]
  interval_cases i <;> simp_all [opField, dispField]

theorem longWord_of_and_longMask (hp : p &&& 0x07FF#16 = 0x0400#16) (h : w &&& 0xFC7F#16 = p) :
    longWord (opField p) (w.extractLsb' 8 2) (iaField w) 0#7 = w := by
  subst h
  refine BitVec.eq_of_getLsbD_eq fun i hi => ?_
  replace hp := congrArg (·.getLsbD i) hp
  rw [getLsbD_longWord]
  interval_cases i <;> simp_all [opField, iaField]

theorem shortWord_of_and_shiftMask (hp : p &&& 0x07FF#16 = 0#16) (h : w &&& 0xFFC0#16 = p) :
    shortWord (opField p) 0#2 (0#2 ++ countField w) = w := by
  subst h
  refine BitVec.eq_of_getLsbD_eq fun i hi => ?_
  replace hp := congrArg (·.getLsbD i) hp
  rw [getLsbD_shortWord, BitVec.getLsbD_append]
  interval_cases i <;> simp_all [opField, countField]

theorem shortWord_of_and_skipMask (hp : p &&& 0x07FF#16 = 0#16) (h : w &&& 0xFFC4#16 = p) :
    shortWord (opField p) 0#2 (0#2 ++ (condField w).bits) = w := by
  subst h
  refine BitVec.eq_of_getLsbD_eq fun i hi => ?_
  replace hp := congrArg (·.getLsbD i) hp
  rw [getLsbD_shortWord, BitVec.getLsbD_append, Conditions.getLsbD_bits]
  interval_cases i <;> simp_all [opField, condField]

theorem longWord_of_and_branchMask (hp : p &&& 0x07FF#16 = 0x0400#16) (h : w &&& 0xFC44#16 = p) :
    longWord (opField p) (w.extractLsb' 8 2) (iaField w) (0#1 ++ (condField w).bits) = w := by
  subst h
  refine BitVec.eq_of_getLsbD_eq fun i hi => ?_
  replace hp := congrArg (·.getLsbD i) hp
  rw [getLsbD_longWord, BitVec.getLsbD_append, Conditions.getLsbD_bits]
  interval_cases i <;> simp_all [opField, iaField, condField]

end

/-! ### A layout meets its pattern -/

section
variable (op : BitVec 5) (t : BitVec 2) (ia : Bool) (low : BitVec 8) (n : BitVec 6) (c : Conditions)

theorem shortWord_and_shortMask : shortWord op t low &&& 0xFC00#16 = shortWord op 0#2 0#8 := by
  refine BitVec.eq_of_getLsbD_eq fun i hi => ?_
  rw [BitVec.getLsbD_and, getLsbD_shortWord, getLsbD_shortWord]
  interval_cases i <;> simp

theorem longWord_and_longMask : longWord op t ia 0#7 &&& 0xFC7F#16 = longWord op 0#2 false 0#7 := by
  refine BitVec.eq_of_getLsbD_eq fun i hi => ?_
  rw [BitVec.getLsbD_and, getLsbD_longWord, getLsbD_longWord]
  interval_cases i <;> simp

theorem shortWord_and_shiftMask : shortWord op 0#2 (0#2 ++ n) &&& 0xFFC0#16 = shortWord op 0#2 0#8 := by
  refine BitVec.eq_of_getLsbD_eq fun i hi => ?_
  rw [BitVec.getLsbD_and, getLsbD_shortWord, getLsbD_shortWord, BitVec.getLsbD_append]
  interval_cases i <;> simp

theorem shortWord_and_skipMask : shortWord op 0#2 (0#2 ++ c.bits) &&& 0xFFC4#16 = shortWord op 0#2 0#8 := by
  refine BitVec.eq_of_getLsbD_eq fun i hi => ?_
  rw [BitVec.getLsbD_and, getLsbD_shortWord, getLsbD_shortWord, BitVec.getLsbD_append, Conditions.getLsbD_bits]
  interval_cases i <;> simp

theorem longWord_and_branchMask :
    longWord op t ia (0#1 ++ c.bits) &&& 0xFC44#16 = longWord op 0#2 false 0#7 := by
  refine BitVec.eq_of_getLsbD_eq fun i hi => ?_
  rw [BitVec.getLsbD_and, getLsbD_longWord, getLsbD_longWord, BitVec.getLsbD_append, Conditions.getLsbD_bits]
  interval_cases i <;> simp

end

end Sys2Proof
end

section
/-! SUPPORT. The rows of the decode table (30_encoding.md R96): which words meet each, that no word meets two, and that
what a row builds encodes to the words it was built from. -/

namespace Sys2Proof

open Machine Claims

/-! ### The words that meet a row -/

/-- The row of SLA, whose extra condition leaves NOP's word out (R94). -/
abbrev Row.sla : Row :=
  ⟨0x1000#16, 0xFFC0#16, fun w => countField w != 0#6, fun w => .short (.sla (countField w))⟩

section
variable {p w : Word}

theorem sla_holds_iff : Row.sla.holds w = true ↔ w &&& 0xFFC0#16 = 0x1000#16 ∧ countField w ≠ 0#6 := by
  simp [Row.holds]

theorem shortForm_holds_iff {make : Tag → BitVec 8 → Instr} (hp : p &&& 0x03FF#16 = 0#16) :
    (Row.shortForm p make).holds w = true ↔ opField w = opField p ∧ w.getLsbD 10 = p.getLsbD 10 := by
  rw [Row.shortForm, plain_holds, and_shortMask_eq_iff hp]

theorem longForm_holds_iff {make : Tag → Bool → Word → Instr} (hp : p &&& 0x0380#16 = 0#16) :
    (Row.longForm p make).holds w = true ↔
      opField w = opField p ∧ w.getLsbD 10 = p.getLsbD 10 ∧ modField w = modField p := by
  rw [Row.longForm, plain_holds, and_longMask_eq_iff hp]

theorem tagged_holds_iff {m : Word} {build : XReg → Word → FirstWord} :
    (Row.tagged p m build).holds w = true ↔ w &&& m = p ∧ w.extractLsb' 8 2 ≠ 0#2 := by
  simp [Row.tagged, Row.holds, ← tagField_eq_none_iff, Option.isSome_iff_ne_none]

theorem shortIndexForm_holds_iff {make : XReg → BitVec 8 → Instr} (hp : p &&& 0x03FF#16 = 0#16) :
    (Row.shortIndexForm p make).holds w = true ↔
      opField w = opField p ∧ w.getLsbD 10 = p.getLsbD 10 ∧ w.extractLsb' 8 2 ≠ 0#2 := by
  rw [Row.shortIndexForm, tagged_holds_iff, and_shortMask_eq_iff hp, and_assoc]

theorem longIndexForm_holds_iff {make : XReg → Bool → Word → Instr} (hp : p &&& 0x0380#16 = 0#16) :
    (Row.longIndexForm p make).holds w = true ↔
      opField w = opField p ∧ w.getLsbD 10 = p.getLsbD 10 ∧ w.extractLsb' 8 2 ≠ 0#2 ∧ modField w = modField p := by
  rw [Row.longIndexForm, tagged_holds_iff, and_longMask_eq_iff hp, and_assoc, and_assoc,
    and_comm (a := modField w = modField p)]

end

/-! ### No word meets two rows -/

/-- Two rows differ in OP and F, or the first is one word that the second's extra condition leaves out (R94). -/
def Row.apart (r r' : Row) : Bool :=
  opFormat r.pattern != opFormat r'.pattern || (r.mask == 0xFFFF#16 && !r'.extra r.pattern)

theorem not_holds_of_apart {r r' : Row} (hr : r ∈ decodeTable) (hr' : r' ∈ decodeTable) (ha : r.apart r' = true)
    {w : Word} (h : r.holds w = true) : r'.holds w = false := by
  by_contra hc
  have hc : r'.holds w = true := by simpa using hc
  simp only [Row.apart, Bool.or_eq_true, bne_iff_ne, Bool.and_eq_true, beq_iff_eq, Bool.not_eq_true'] at ha
  rcases ha with hne | ⟨hmask, hextra⟩
  · exact hne ((opFormat_of_holds r hr w h).trans (opFormat_of_holds r' hr' w hc).symm)
  · simp only [Row.holds, hmask, and_fullMask, Bool.and_eq_true, beq_iff_eq] at h hc
    rw [h.1, hextra] at hc
    exact Bool.noConfusion hc.2

theorem decodeTable_pairwise_apart : decodeTable.Pairwise fun r r' => r.apart r' = true := by decide

theorem filter_length_le_one {α : Type} {q : α → Bool} {l : List α}
    (h : l.Pairwise fun a b => q a = true → q b = false) : (l.filter q).length ≤ 1 := by
  induction l with
  | nil => simp
  | cons a l ih =>
    obtain ⟨ha, hl⟩ := List.pairwise_cons.mp h
    by_cases hq : q a = true
    · have hnil : l.filter q = [] := List.filter_eq_nil_iff.mpr fun b hb => by simp [ha b hb hq]
      simp [hq, hnil]
    · rw [List.filter_cons_of_neg hq]
      exact ih hl

/-- The rows that a word meets are none or one. -/
theorem filter_holds_length_le_one (w : Word) : (decodeTable.filter (·.holds w)).length ≤ 1 :=
  filter_length_le_one (decodeTable_pairwise_apart.imp_of_mem fun hr hr' ha => not_holds_of_apart hr hr' ha)

/-! ### The rows decide -/

theorem decodeFirst_of_holds {r : Row} {w : Word} (hr : r ∈ decodeTable) (h : r.holds w = true) :
    decodeFirst w = r.build w := by
  have hmem : r ∈ decodeTable.filter (·.holds w) := List.mem_filter.mpr ⟨hr, h⟩
  have hone : decodeTable.filter (·.holds w) = [r] := by
    obtain ⟨r', hr'⟩ := List.length_eq_one_iff.mp
      (Nat.le_antisymm (filter_holds_length_le_one w) (List.length_pos_of_mem hmem))
    rw [hr', List.mem_singleton] at hmem
    rw [hr', hmem]
  have hfind : decodeTable.find? (·.holds w) = some r := by rw [← List.head?_filter, hone]; rfl
  simp only [decodeFirst, hfind]

theorem decodeFirst_of_no_row {w : Word} (h : ∀ r ∈ decodeTable, r.holds w = false) : decodeFirst w = .invalid := by
  have hfind : decodeTable.find? (·.holds w) = none := List.find?_eq_none.mpr fun r hr => by simp [h r hr]
  simp only [decodeFirst, hfind]

/-- A first word meets a row, which builds what it says, or is invalid and meets none. -/
theorem decodeFirst_cases (w : Word) : (∃ r ∈ decodeTable, r.holds w = true ∧ decodeFirst w = r.build w) ∨
    (decodeFirst w = .invalid ∧ ∀ r ∈ decodeTable, r.holds w = false) := by
  by_cases h : ∃ r ∈ decodeTable, r.holds w = true
  · obtain ⟨r, hr, hw⟩ := h
    exact .inl ⟨r, hr, hw, decodeFirst_of_holds hr hw⟩
  · have hno : ∀ r ∈ decodeTable, r.holds w = false := by simpa using h
    exact .inr ⟨decodeFirst_of_no_row hno, hno⟩

/-! ### What a row builds encodes to its words -/

/-- A first word says an instruction, which is well formed and whose encoding begins with the word `w`. -/
def FirstWord.EncodesTo (w : Word) : FirstWord → Prop
  | .invalid => False
  | .short i => i.wellFormed = true ∧ encode i = [w]
  | .long complete => ∀ addr, (complete addr).wellFormed = true ∧ encode (complete addr) = [w, addr]

/-- What the row builds from a word that meets it encodes to that word. -/
def Row.EncodesBack (r : Row) : Prop := ∀ w, r.holds w = true → (r.build w).EncodesTo w

theorem shortIndexForm_build {p w : Word} {make : XReg → BitVec 8 → Instr} {x : XReg} (hx : tagField w = some x) :
    (Row.shortIndexForm p make).build w = .short (make x (dispField w)) := by
  simp only [Row.shortIndexForm, Row.tagged, hx]

theorem longIndexForm_build {p w : Word} {make : XReg → Bool → Word → Instr} {x : XReg} (hx : tagField w = some x) :
    (Row.longIndexForm p make).build w = .long (make x (iaField w)) := by
  simp only [Row.longIndexForm, Row.tagged, hx]

theorem tagged_holds {p m w : Word} {build : XReg → Word → FirstWord} (h : (Row.tagged p m build).holds w = true) :
    w &&& m = p ∧ ∃ x, tagField w = some x := by
  obtain ⟨hand, ht⟩ := tagged_holds_iff.mp h
  exact ⟨hand, Option.ne_none_iff_exists'.mp (mt tagField_eq_none_iff.mp ht)⟩

section
variable {p : Word}

theorem shortForm_encodesBack {make : Tag → BitVec 8 → Instr} (hp : p &&& 0x07FF#16 = 0#16)
    (hmake : ∀ t d, (make t d).wellFormed = true ∧ encode (make t d) = [shortWord (opField p) t.bits d]) :
    (Row.shortForm p make).EncodesBack := by
  intro w h
  obtain ⟨hwf, henc⟩ := hmake (tagField w) (dispField w)
  refine ⟨hwf, ?_⟩
  rw [henc, tagField_bits, shortWord_of_and_shortMask hp ((plain_holds ..).mp h)]

theorem longForm_encodesBack {make : Tag → Bool → Word → Instr} (hp : p &&& 0x07FF#16 = 0x0400#16)
    (hmake : ∀ t ia a, (make t ia a).wellFormed = true ∧
      encode (make t ia a) = [longWord (opField p) t.bits ia 0#7, a]) :
    (Row.longForm p make).EncodesBack := by
  intro w h addr
  obtain ⟨hwf, henc⟩ := hmake (tagField w) (iaField w) addr
  refine ⟨hwf, ?_⟩
  rw [henc, tagField_bits, longWord_of_and_longMask hp ((plain_holds ..).mp h)]

theorem shortIndexForm_encodesBack {make : XReg → BitVec 8 → Instr} (hp : p &&& 0x07FF#16 = 0#16)
    (hmake : ∀ x d, (make x d).wellFormed = true ∧ encode (make x d) = [shortWord (opField p) x.bits d]) :
    (Row.shortIndexForm p make).EncodesBack := by
  intro w h
  obtain ⟨hand, x, hx⟩ := tagged_holds h
  obtain ⟨hwf, henc⟩ := hmake x (dispField w)
  rw [shortIndexForm_build hx]
  refine ⟨hwf, ?_⟩
  rw [henc, xreg_bits_of_tagField hx, shortWord_of_and_shortMask hp hand]

theorem longIndexForm_encodesBack {make : XReg → Bool → Word → Instr} (hp : p &&& 0x07FF#16 = 0x0400#16)
    (hmake : ∀ x ia a, (make x ia a).wellFormed = true ∧
      encode (make x ia a) = [longWord (opField p) x.bits ia 0#7, a]) :
    (Row.longIndexForm p make).EncodesBack := by
  intro w h
  obtain ⟨hand, x, hx⟩ := tagged_holds h
  rw [longIndexForm_build hx]
  intro addr
  obtain ⟨hwf, henc⟩ := hmake x (iaField w) addr
  refine ⟨hwf, ?_⟩
  rw [henc, xreg_bits_of_tagField hx, longWord_of_and_longMask hp hand]

end

theorem nop_encodesBack : (Row.plain 0x1000#16 0xFFFF#16 fun _ => .short .nop).EncodesBack := by
  intro w h
  rw [plain_holds, and_fullMask] at h
  rw [h]
  exact ⟨rfl, rfl⟩

theorem wait_encodesBack : (Row.plain 0x3000#16 0xFFFF#16 fun _ => .short .wait).EncodesBack := by
  intro w h
  rw [plain_holds, and_fullMask] at h
  rw [h]
  exact ⟨rfl, rfl⟩

theorem sla_encodesBack : Row.sla.EncodesBack := by
  intro w h
  obtain ⟨hand, hcount⟩ := sla_holds_iff.mp h
  refine ⟨bne_iff_ne.mpr hcount, ?_⟩
  rw [encode, show 0b00010#5 = opField 0x1000#16 from rfl, shortWord_of_and_shiftMask rfl hand]

theorem sra_encodesBack : (Row.plain 0x1800#16 0xFFC0#16 fun w => .short (.sra (countField w))).EncodesBack := by
  intro w h
  refine ⟨rfl, ?_⟩
  rw [encode, show 0b00011#5 = opField 0x1800#16 from rfl, shortWord_of_and_shiftMask rfl ((plain_holds ..).mp h)]

theorem bscShort_encodesBack :
    (Row.plain 0x4800#16 0xFFC4#16 fun w => .short (.bscShort (condField w))).EncodesBack := by
  intro w h
  refine ⟨rfl, ?_⟩
  rw [encode, show 0b01001#5 = opField 0x4800#16 from rfl, shortWord_of_and_skipMask rfl ((plain_holds ..).mp h)]

theorem bscLong_encodesBack : (Row.plain 0x4C00#16 0xFC44#16 fun w =>
    .long (.bscLong (tagField w) (iaField w) (condField w))).EncodesBack := by
  intro w h addr
  refine ⟨rfl, ?_⟩
  rw [encode, tagField_bits, show 0b01001#5 = opField 0x4C00#16 from rfl,
    longWord_of_and_branchMask rfl ((plain_holds ..).mp h)]

/-- The 24 rows, in the table's order. -/
theorem row_encodesBack : ∀ r ∈ decodeTable, r.EncodesBack := by
  simp only [decodeTable, List.cons_append, List.nil_append, List.forall_mem_cons]
  exact ⟨nop_encodesBack, sla_encodesBack, sra_encodesBack, wait_encodesBack,
    shortForm_encodesBack rfl fun _ _ => ⟨rfl, rfl⟩, longForm_encodesBack rfl fun _ _ _ => ⟨rfl, rfl⟩,
    bscShort_encodesBack, bscLong_encodesBack,
    shortIndexForm_encodesBack rfl fun _ _ => ⟨rfl, rfl⟩, longIndexForm_encodesBack rfl fun _ _ _ => ⟨rfl, rfl⟩,
    shortIndexForm_encodesBack rfl fun _ _ => ⟨rfl, rfl⟩, longIndexForm_encodesBack rfl fun _ _ _ => ⟨rfl, rfl⟩,
    shortForm_encodesBack rfl fun _ _ => ⟨rfl, rfl⟩, longForm_encodesBack rfl fun _ _ _ => ⟨rfl, rfl⟩,
    shortForm_encodesBack rfl fun _ _ => ⟨rfl, rfl⟩, longForm_encodesBack rfl fun _ _ _ => ⟨rfl, rfl⟩,
    shortForm_encodesBack rfl fun _ _ => ⟨rfl, rfl⟩, longForm_encodesBack rfl fun _ _ _ => ⟨rfl, rfl⟩,
    shortForm_encodesBack rfl fun _ _ => ⟨rfl, rfl⟩, longForm_encodesBack rfl fun _ _ _ => ⟨rfl, rfl⟩,
    shortForm_encodesBack rfl fun _ _ => ⟨rfl, rfl⟩, longForm_encodesBack rfl fun _ _ _ => ⟨rfl, rfl⟩,
    shortForm_encodesBack rfl fun _ _ => ⟨rfl, rfl⟩, longForm_encodesBack rfl fun _ _ _ => ⟨rfl, rfl⟩,
    fun _ h => absurd h List.not_mem_nil⟩

theorem decodeFirst_encodesTo {w : Word} (h : decodeFirst w ≠ .invalid) : (decodeFirst w).EncodesTo w := by
  obtain ⟨r, hr, hw, hd⟩ | ⟨hinv, -⟩ := decodeFirst_cases w
  · exact hd ▸ row_encodesBack r hr w hw
  · exact absurd hinv h

/-- A word that meets a row is no invalid word, so the invalid words are those that meet none. -/
theorem decodeFirst_eq_invalid_iff {w : Word} : decodeFirst w = .invalid ↔ ∀ r ∈ decodeTable, r.holds w = false := by
  refine ⟨fun hinv => ?_, decodeFirst_of_no_row⟩
  obtain ⟨r, hr, hw, hd⟩ | ⟨-, hno⟩ := decodeFirst_cases w
  · have hback := row_encodesBack r hr w hw
    rw [← hd, hinv] at hback
    exact hback.elim
  · exact hno

end Sys2Proof
end

section
/-! SUPPORT. Decoding a sequence of words (30_encoding.md R80, R96, R98): what `decode` answers, and that each encoded
instruction meets its own row. -/

namespace Sys2Proof

open Machine Claims

/-! ### What decode answers -/

theorem decode_cons_eq_ok {w : Word} {ws rest : List Word} {i : Instr} : decode (w :: ws) = .ok (i, rest) ↔
    (decodeFirst w = .short i ∧ rest = ws) ∨
    ∃ complete addr, decodeFirst w = .long complete ∧ ws = addr :: rest ∧ i = complete addr := by
  cases hd : decodeFirst w with
  | invalid => simp [decode, hd]
  | short j => simp [decode, hd, eq_comm]
  | long complete => cases ws <;> simp [decode, hd]; grind

theorem decode_encodes {ws rest : List Word} {i : Instr} (h : decode ws = .ok (i, rest)) :
    i.wellFormed = true ∧ ws = encode i ++ rest := by
  cases ws with
  | nil => cases h
  | cons w ws =>
    obtain ⟨hd, rfl⟩ | ⟨complete, addr, hd, rfl, rfl⟩ := decode_cons_eq_ok.mp h
    · have hback := decodeFirst_encodesTo (w := w) (by simp [hd])
      rw [hd] at hback
      obtain ⟨hwf, henc⟩ := hback
      exact ⟨hwf, by rw [henc]; rfl⟩
    · have hback := decodeFirst_encodesTo (w := w) (by simp [hd])
      rw [hd] at hback
      obtain ⟨hwf, henc⟩ := hback addr
      exact ⟨hwf, by rw [henc]; rfl⟩

/-! ### Each instruction's row -/

section
variable {op : BitVec 5}

theorem decodeFirst_shortForm {make : Tag → BitVec 8 → Instr}
    (hrow : Row.shortForm (shortWord op 0#2 0#8) make ∈ decodeTable) (t : Tag) (disp : BitVec 8) :
    decodeFirst (shortWord op t.bits disp) = .short (make t disp) := by
  rw [decodeFirst_of_holds hrow ((plain_holds ..).mpr (shortWord_and_shortMask ..)), Row.shortForm, plain_build,
    tagField_shortWord, dispField_shortWord]

theorem decodeFirst_longForm {make : Tag → Bool → Word → Instr}
    (hrow : Row.longForm (longWord op 0#2 false 0#7) make ∈ decodeTable) (t : Tag) (ia : Bool) :
    decodeFirst (longWord op t.bits ia 0#7) = .long (make t ia) := by
  rw [decodeFirst_of_holds hrow ((plain_holds ..).mpr (longWord_and_longMask ..)), Row.longForm, plain_build,
    tagField_longWord, iaField_longWord]

theorem tagged_holds_of_tag {p m w : Word} {build : XReg → Word → FirstWord} {x : XReg} (hand : w &&& m = p)
    (hx : tagField w = some x) : (Row.tagged p m build).holds w = true :=
  tagged_holds_iff.mpr ⟨hand, fun ht => by simp [tagField_eq_none_iff.mpr ht] at hx⟩

theorem decodeFirst_shortIndexForm {make : XReg → BitVec 8 → Instr}
    (hrow : Row.shortIndexForm (shortWord op 0#2 0#8) make ∈ decodeTable) (x : XReg) (disp : BitVec 8) :
    decodeFirst (shortWord op x.bits disp) = .short (make x disp) := by
  have hx : tagField (shortWord op x.bits disp) = some x := tagField_shortWord op disp (some x)
  rw [decodeFirst_of_holds hrow (tagged_holds_of_tag (shortWord_and_shortMask ..) hx), shortIndexForm_build hx,
    dispField_shortWord]

theorem decodeFirst_longIndexForm {make : XReg → Bool → Word → Instr}
    (hrow : Row.longIndexForm (longWord op 0#2 false 0#7) make ∈ decodeTable) (x : XReg) (ia : Bool) :
    decodeFirst (longWord op x.bits ia 0#7) = .long (make x ia) := by
  have hx : tagField (longWord op x.bits ia 0#7) = some x := tagField_longWord op ia 0#7 (some x)
  rw [decodeFirst_of_holds hrow (tagged_holds_of_tag (longWord_and_longMask ..) hx), longIndexForm_build hx,
    iaField_longWord]

end

theorem decodeFirst_sla {n : BitVec 6} (hn : n ≠ 0#6) :
    decodeFirst (shortWord 0b00010#5 0#2 (0#2 ++ n)) = .short (.sla n) := by
  have hrow : Row.sla ∈ decodeTable := List.mem_of_getElem? (i := 1) rfl
  have hcount := countField_shortWord 0b00010#5 0#2 n
  rw [decodeFirst_of_holds hrow (sla_holds_iff.mpr ⟨shortWord_and_shiftMask .., hcount.symm ▸ hn⟩)]
  exact congrArg (fun k => FirstWord.short (.sla k)) hcount

theorem decodeFirst_sra (n : BitVec 6) : decodeFirst (shortWord 0b00011#5 0#2 (0#2 ++ n)) = .short (.sra n) := by
  have hrow : (Row.plain 0x1800#16 0xFFC0#16 fun w => .short (.sra (countField w))) ∈ decodeTable :=
    List.mem_of_getElem? (i := 2) rfl
  rw [decodeFirst_of_holds hrow ((plain_holds ..).mpr (shortWord_and_shiftMask ..)), plain_build, countField_shortWord]

theorem decodeFirst_bscShort (c : Conditions) :
    decodeFirst (shortWord 0b01001#5 0#2 (0#2 ++ c.bits)) = .short (.bscShort c) := by
  have hrow : (Row.plain 0x4800#16 0xFFC4#16 fun w => .short (.bscShort (condField w))) ∈ decodeTable :=
    List.mem_of_getElem? (i := 6) rfl
  rw [decodeFirst_of_holds hrow ((plain_holds ..).mpr (shortWord_and_skipMask ..)), plain_build, condField_shortWord]

theorem decodeFirst_bscLong (t : Tag) (ia : Bool) (c : Conditions) :
    decodeFirst (longWord 0b01001#5 t.bits ia (0#1 ++ c.bits)) = .long (.bscLong t ia c) := by
  have hrow : (Row.plain 0x4C00#16 0xFC44#16 fun w => .long (.bscLong (tagField w) (iaField w) (condField w))) ∈
    decodeTable := List.mem_of_getElem? (i := 7) rfl
  rw [decodeFirst_of_holds hrow ((plain_holds ..).mpr (longWord_and_branchMask ..)), plain_build, tagField_longWord,
    iaField_longWord, condField_longWord]

/-! ### Decode of encode -/

theorem decode_short {w : Word} {i : Instr} (h : decodeFirst w = .short i) (rest : List Word) :
    decode ([w] ++ rest) = .ok (i, rest) := decode_cons_eq_ok.mpr (.inl ⟨h, rfl⟩)

theorem decode_long {w : Word} {complete : Word → Instr} (h : decodeFirst w = .long complete) (addr : Word)
    (rest : List Word) : decode ([w, addr] ++ rest) = .ok (complete addr, rest) :=
  decode_cons_eq_ok.mpr (.inr ⟨complete, addr, h, rfl, rfl⟩)

theorem decode_encode {i : Instr} (hi : i.wellFormed = true) (rest : List Word) :
    decode (encode i ++ rest) = .ok (i, rest) := by
  cases i with
  | nop | wait => exact decode_short rfl rest
  | sla n => exact decode_short (decodeFirst_sla (by simpa [Instr.wellFormed] using hi)) rest
  | sra n => exact decode_short (decodeFirst_sra n) rest
  | bscShort c => exact decode_short (decodeFirst_bscShort c) rest
  | bscLong t ia c addr => exact decode_long (decodeFirst_bscLong t ia c) addr rest
  | bsiShort t disp | aShort t disp | sShort t disp | ldShort t disp | stoShort t disp | andShort t disp
  | orShort t disp => exact decode_short (decodeFirst_shortForm (by simp [decodeTable, shortWord]) t disp) rest
  | bsiLong t ia addr | aLong t ia addr | sLong t ia addr | ldLong t ia addr | stoLong t ia addr | andLong t ia addr
  | orLong t ia addr => exact decode_long (decodeFirst_longForm (by simp [decodeTable, longWord]) t ia) addr rest
  | ldxShort x disp | stxShort x disp =>
    exact decode_short (decodeFirst_shortIndexForm (by simp [decodeTable, shortWord]) x disp) rest
  | ldxLong x ia addr | stxLong x ia addr =>
    exact decode_long (decodeFirst_longIndexForm (by simp [decodeTable, longWord]) x ia) addr rest

end Sys2Proof
end

section
/-! SUPPORT. The words that meet no row, as 30_encoding.md R97 lists them. -/

namespace Sys2Proof

open Machine Claims

/-- A word with SLA's OP and its operand bits clear but the count is NOP's word or has a count of 1 to 63 (R93, R94). -/
theorem nop_or_sla_iff {w : Word} :
    w = 0x1000#16 ∨ (w &&& 0xFFC0#16 = 0x1000#16 ∧ countField w ≠ 0#6) ↔ w &&& 0xFFC0#16 = 0x1000#16 := by
  refine ⟨fun h => ?_, fun h => ?_⟩
  · obtain rfl | ⟨hand, -⟩ := h
    · rfl
    · exact hand
  · by_cases hn : countField w = 0#6
    · exact .inl (by rw [← shortWord_of_and_shiftMask rfl h, hn]; rfl)
    · exact .inr ⟨h, hn⟩

theorem toNat_opField_eq_iff {w : Word} {n : Nat} (hn : n < 32) :
    (opField w).toNat = n ↔ opField w = BitVec.ofNat 5 n := by
  rw [← BitVec.toNat_inj, BitVec.toNat_ofNat, Nat.mod_eq_of_lt hn]

/-- R96 and R97 in the same fields: the operation code leaves at most two rows, and what they ask of the other fields is
what R97 does not refuse. -/
theorem exists_row_holds_iff {w : Word} : (∃ r ∈ decodeTable, r.holds w = true) ↔ ¬ InvalidWord w := by
  have hwait : w = 0x3000#16 ↔ opField w = 0x06#5 ∧ w = 0x3000#16 := ⟨fun h => ⟨h ▸ rfl, h⟩, And.right⟩
  simp only [InvalidWord, ← opField.eq_def, ← modField.eq_def, ← spareField.eq_def, usedOps, plainLongOps,
    List.mem_cons, List.not_mem_nil, or_false, toNat_opField_eq_iff, Nat.reduceLT]
  simp only [decodeTable, List.cons_append, List.nil_append, List.exists_mem_cons_iff, List.not_mem_nil, false_and,
    exists_false, or_false, plain_holds, and_fullMask, sla_holds_iff]
  rw [← or_assoc, nop_or_sla_iff, hwait]
  simp (disch := decide) only [shortForm_holds_iff, longForm_holds_iff, shortIndexForm_holds_iff,
    longIndexForm_holds_iff, and_shiftMask_eq_iff, and_skipMask_eq_iff, and_branchMask_eq_iff]
  simp only [opField, modField, spareField, BitVec.reduceExtractLsb', BitVec.reduceGetLsb]
  generalize w.extractLsb' 11 5 = op
  by_cases hused : op = 0x02#5 ∨ op = 0x03#5 ∨ op = 0x06#5 ∨ op = 0x08#5 ∨ op = 0x09#5 ∨ op = 0x0C#5 ∨ op = 0x0D#5 ∨
    op = 0x10#5 ∨ op = 0x12#5 ∨ op = 0x18#5 ∨ op = 0x1A#5 ∨ op = 0x1C#5 ∨ op = 0x1D#5
  · obtain rfl | rfl | rfl | rfl | rfl | rfl | rfl | rfl | rfl | rfl | rfl | rfl | rfl := hused <;>
      cases w.getLsbD 10 <;> simp
  · simp only [not_or] at hused
    simp [hused]

theorem decodeFirst_eq_invalid_iff_invalidWord {w : Word} : decodeFirst w = .invalid ↔ InvalidWord w := by
  rw [decodeFirst_eq_invalid_iff, ← not_iff_not, ← exists_row_holds_iff]
  simp

end Sys2Proof
end

section
/-! SUPPORT. Lengths of instructions, the effective address, and the step up to Execute (30_encoding.md R80, R100, R104,
R110 to R114). -/

namespace Sys2Proof

open Machine Claims

/-! ### Lengths -/

theorem encode_length (i : Instr) : (encode i).length = i.words := by cases i <;> rfl

/-- The format bit of the first word of an encoding is set in the long format alone. -/
theorem skipLength_of_encode {i : Instr} {w : Word} {ws : List Word} (h : encode i = w :: ws) :
    skipLength w = i.words := by
  cases i with
  | nop | wait => cases h; rfl
  | bsiLong | bscLong | ldxLong | stxLong | aLong | sLong | ldLong | stoLong | andLong | orLong =>
    cases h; exact Laws.format_bit_long ..
  | _ => cases h; exact Laws.format_bit_short ..

namespace Machine

/-! ### The effective address -/

theorem resolve_eq_effective {m : Memory} {t : Tag} {o : Operand}
    (h : isIndirect o = true → inRange (indexedAddress m t o)) : resolve m t o = .ok (effective m t o) := by
  rcases o with disp | ⟨_ | _, addr⟩
  · rw [resolve_short, indexed_eq_indexedAddress]; rfl
  · rw [resolve_direct, indexed_eq_indexedAddress]; rfl
  · have hin : inRange (indexed m t (.long true addr)) := by rw [indexed_eq_indexedAddress]; exact h rfl
    rw [resolve_indirect_in hin, indexed_eq_indexedAddress]; rfl

theorem resolve_eq_fault {m : Memory} {t : Tag} {o : Operand} (hind : isIndirect o = true)
    (h : ¬ inRange (indexedAddress m t o)) : resolve m t o = .error (.addressOutOfRange (indexedAddress m t o)) := by
  rcases o with disp | ⟨_ | _, addr⟩
  · cases hind
  · cases hind
  · rw [← indexed_eq_indexedAddress] at h ⊢
    exact resolve_indirect_out h

/-- The two indirect rows of R101: one read, at the indexed address. -/
theorem resolve_indirect (m : Memory) (t : Tag) (addr : Word) :
    resolve m t (.long true addr) = (memRead m (indexed m t (.long true addr))).map fun p => (p.toNat : Int) := by
  by_cases h : inRange (indexed m t (.long true addr))
  · rw [resolve_indirect_in h, memRead_in m h]; rfl
  · rw [resolve_indirect_out h, memRead_out m h]; rfl

theorem indexed_untagged (m : Memory) (o : Operand) : indexed m none o = o.base := Int.add_zero _

/-! ### IAR writes -/

theorem toNat_ofInt_twelve {v : Int} (h : inRange v) : ((BitVec.ofInt 12 v).toNat : Int) = v := by
  rw [BitVec.toNat_ofInt, Int.toNat_of_nonneg (Int.emod_nonneg _ (by decide)), Int.emod_eq_of_lt h.1 (by omega)]

/-! ### Fetch and step -/

theorem step_of_halted {s : State} (hs : s.halted = true) : step s = .fault .alreadyHalted := by
  simp [step, hs]

theorem step_of_fetch_error {s : State} {f : Fault} (hs : s.halted = false) (hf : fetchInstr s = .error f) :
    step s = .fault f := by
  simp [step, hs, hf]

theorem step_of_invalid {s : State} (hs : s.halted = false) (hd : decodeFirst (s.mem.word s.iar.toNat) = .invalid) :
    step s = .fault (.invalidOpcode s.iar (s.mem.word s.iar.toNat)) := by
  refine step_of_fetch_error hs ?_
  simp only [fetchInstr, firstWord, hd, raise]

/-- A long instruction at 4095 would fetch its second word at 4096 (R112). -/
theorem step_of_long_at_top {s : State} {complete : Word → Instr} (hs : s.halted = false) (hi : s.iar = 4095)
    (hd : decodeFirst (s.mem.word 4095) = .long complete) : step s = .fault (.addressOutOfRange 4096) := by
  have hfirst : decodeFirst (firstWord s) = .long complete := by rw [firstWord, hi]; exact hd
  have hnext : fallThrough s 1 = 4096 := by rw [fallThrough, hi]; rfl
  refine step_of_fetch_error hs ?_
  simp only [fetchInstr, hfirst, hnext]
  rfl

theorem fetchInstr_of_decode_one {s : State} {i : Instr} (h : decode [s.mem.word s.iar.toNat] = .ok (i, [])) :
    fetchInstr s = .ok i := by
  obtain ⟨hd, -⟩ | ⟨_, _, -, hnil, -⟩ := decode_cons_eq_ok.mp h
  · exact fetchInstr_eq_ok.mpr (.inl hd)
  · cases hnil

theorem fetchInstr_of_decode_two {s : State} {i : Instr} (hlt : s.iar.toNat < 4095)
    (h : decode [s.mem.word s.iar.toNat, s.mem.word (s.iar.toNat + 1)] = .ok (i, [])) : fetchInstr s = .ok i := by
  have hnext : fallThrough s 1 = (s.iar.toNat + 1 : Nat) := rfl
  rw [fetchInstr_eq_ok, hnext]
  exact (decode_two_words h).imp_right fun ⟨complete, hd, hi⟩ => ⟨complete, hd, by omega, hi⟩

end Machine

end Sys2Proof
end

section
/-! SUPPORT. What the assembler emits for a statement and what its two passes gather (30_encoding.md R121 to R126). -/

namespace Sys2Proof.Machine

open Sys2Proof.Claims

/-! ### The ranges of R124 -/

theorem tagged_eq_hasTag (r : Reference) : r.tagged = hasTag r := by
  rcases r with ⟨op, _ | x⟩ | ⟨op, x⟩ <;> rfl

theorem fitsShort_iff {r : Reference} {x : Int} : fitsShort r.tagged x ↔ ShortOperand r x := by
  rw [tagged_eq_hasTag, ShortOperand]
  cases hasTag r <;> rfl

theorem fitsLong_iff {r : Reference} {x : Int} : fitsLong r.tagged x ↔ AcceptedOperand r x := by
  rw [tagged_eq_hasTag, AcceptedOperand]
  cases hasTag r <;> rfl

theorem fieldOf_short_out {b : Bool} {x : Int} (h : ¬ fitsShort b x) :
    fieldOf b .short x = .error .operandOutOfRange := if_neg h

theorem fieldOf_long_out {b : Bool} {x : Int} (h : ¬ fitsLong b x) :
    fieldOf b .long x = .error .operandOutOfRange := if_neg h

theorem toInt_ofInt_eight {b : Bool} {x : Int} (h : fitsShort b x) : (BitVec.ofInt 8 x).toInt = x := by
  have hlo : -128 ≤ x := by
    obtain ⟨hlo, -⟩ := h
    split at hlo <;> omega
  exact BitVec.toInt_ofInt_eq_self (by decide) hlo (by simpa using Int.lt_add_one_of_le h.2)

/-! ### A memory reference in pass 2 -/

theorem reference_wellFormed (r : Reference) (o : Operand) : (r.instr o).wellFormed = true := by
  cases r with
  | indexed op t => cases op <;> cases o <;> rfl
  | move op x => cases op <;> cases o <;> rfl

section
variable {r : Reference} {x : Int} {e : Expr} {syms : Symbols} {len : Length}

theorem emit_undefined (hx : e.value syms = none) :
    emit syms len (.reference r .auto e) = .error .undefinedSymbol := by
  simp only [emit, resolveExpr, hx]; rfl

theorem emit_reference_eq (hx : e.value syms = some x) : emit syms len (.reference r .auto e) =
    fieldOf r.tagged len x >>= fun o => .ok (encode (r.instr o)) := by
  simp only [emit, resolveExpr, hx]; rfl

theorem emit_of_fieldOf {o : Operand} (hx : e.value syms = some x) (ho : fieldOf r.tagged len x = .ok o) :
    emit syms len (.reference r .auto e) = .ok (encode (r.instr o)) := by
  rw [emit_reference_eq hx, ho]; rfl

theorem emit_of_fieldOf_error {k : AssemblyErrorKind} (hx : e.value syms = some x)
    (ho : fieldOf r.tagged len x = .error k) : emit syms len (.reference r .auto e) = .error k := by
  rw [emit_reference_eq hx, ho]; rfl

/-- The words emitted decode to the reference, by the round trip. -/
theorem decode_encode_reference (r : Reference) (o : Operand) : decode (encode (r.instr o)) = .ok (r.instr o, []) := by
  have h := decode_encode (reference_wellFormed r o) []
  rwa [List.append_nil] at h

theorem emit_short (hx : e.value syms = some x) (hs : ShortOperand r x) : ∃ (w : Word) (disp : BitVec 8),
    disp.toInt = x ∧ emit syms .short (.reference r .auto e) = .ok [w] ∧
      decode [w] = .ok (r.instr (.short disp), []) := by
  have hfits := fitsShort_iff.mpr hs
  have hemit := emit_of_fieldOf hx (fieldOf_short_eq_ok.mpr ⟨hfits, rfl⟩)
  obtain ⟨w, hw⟩ := List.length_eq_one_iff.mp (encode_reference_length r (.short (BitVec.ofInt 8 x)))
  have hdec := decode_encode_reference r (.short (BitVec.ofInt 8 x))
  rw [hw] at hemit hdec
  exact ⟨w, _, toInt_ofInt_eight hfits, hemit, hdec⟩

theorem emit_short_out (hx : e.value syms = some x) (hs : ¬ ShortOperand r x) :
    emit syms .short (.reference r .auto e) = .error .operandOutOfRange :=
  emit_of_fieldOf_error hx (fieldOf_short_out (mt fitsShort_iff.mp hs))

theorem emit_long (hx : e.value syms = some x) (ha : AcceptedOperand r x) : ∃ w0 w1 : Word,
    emit syms .long (.reference r .auto e) = .ok [w0, w1] ∧
      decode [w0, w1] = .ok (r.instr (.long false (trunc16 x)), []) := by
  have hemit := emit_of_fieldOf hx (fieldOf_long_eq_ok.mpr ⟨fitsLong_iff.mpr ha, rfl⟩)
  obtain ⟨w0, w1, hw⟩ := List.length_eq_two.mp (encode_reference_length r (.long false (trunc16 x)))
  have hdec := decode_encode_reference r (.long false (trunc16 x))
  rw [hw] at hemit hdec
  exact ⟨w0, w1, hemit, hdec⟩

theorem emit_long_out (hx : e.value syms = some x) (ha : ¬ AcceptedOperand r x) :
    emit syms .long (.reference r .auto e) = .error .operandOutOfRange :=
  emit_of_fieldOf_error hx (fieldOf_long_out (mt fitsLong_iff.mp ha))

/-! ### Its length in pass 1 -/

theorem statementLength_known_short (policy : LengthPolicy) (hx : e.value syms = some x) (hs : ShortOperand r x) :
    statementLength policy syms (.reference r .auto e) = .short := by
  simp only [statementLength, hx]
  exact if_pos (fitsShort_iff.mpr hs)

theorem statementLength_known_long (policy : LengthPolicy) (hx : e.value syms = some x) (hs : ¬ ShortOperand r x) :
    statementLength policy syms (.reference r .auto e) = .long := by
  simp only [statementLength, hx]
  exact if_neg (mt fitsShort_iff.mp hs)

theorem statementLength_unknown (policy : LengthPolicy) (hx : e.value syms = none) :
    statementLength policy syms (.reference r .auto e) = policy (.reference r .auto e) syms := by
  simp only [statementLength, hx]

end

/-! ### Lengths in the two passes -/

/-- Pass 2 emits as many words as the length says that pass 1 gave the statement. -/
theorem length_of_emit {policy : LengthPolicy} {known syms : Symbols} {st : Statement} {ws : List Word}
    (h : emit syms (statementLength policy known st) st = .ok ws) (hst : ∀ n, st ≠ .org n) :
    ws.length = (statementLength policy known st).words := by
  cases st with
  | reference r form x =>
    cases form with
    | auto =>
      obtain ⟨v, -, h⟩ := except_bind_eq_ok.mp h
      obtain ⟨o, ho, h⟩ := except_bind_eq_ok.mp h
      cases h
      rw [encode_reference_length, fieldOf_len ho]
    | long | indirect =>
      obtain ⟨v, -, h⟩ := except_bind_eq_ok.mp h
      obtain ⟨o, ho, h⟩ := except_bind_eq_ok.mp h
      cases h
      rw [encode_reference_length, forcedField_len ho]
      rfl
  | branch ia t x c =>
    obtain ⟨v, -, h⟩ := except_bind_eq_ok.mp h
    split at h <;> cases h
    rfl
  | shift op n =>
    obtain ⟨v, -, h⟩ := except_bind_eq_ok.mp h
    obtain ⟨i, hi, h⟩ := except_bind_eq_ok.mp h
    cases h
    exact encode_shift_length hi
  | data v =>
    obtain ⟨v, -, h⟩ := except_bind_eq_ok.mp h
    cases h
    rfl
  | skip c => cases h; rfl
  | wait => cases h; rfl
  | nop => cases h; rfl
  | org n => exact absurd rfl (hst n)

theorem cursorAfter_eq_add {st : Statement} (hst : ∀ n, st ≠ .org n) (syms : Symbols) (len : Length) (cursor : Int) :
    cursorAfter st syms len cursor = cursor + len.words := by
  cases st with
  | org n => exact absurd rfl (hst n)
  | _ => rfl

/-! ### Diagnostics -/

section
variable {hexPrefix : Name} {policy : LengthPolicy} {source : List Char} {start : Int}

/-- A diagnostic of either pass is answered. -/
theorem assemble_reports {d : AssemblyError} (hs : inRange start)
    (hd : d ∈ (sourcePass1 hexPrefix policy source start).errors ++
      (pass2 (sourcePass1 hexPrefix policy source start).symbols
        (sourcePass1 hexPrefix policy source start).placed ⟨[], []⟩).errors) :
    ∃ es, assemble hexPrefix policy source start = .diagnostics es ∧ d ∈ es := by
  obtain ⟨hout, -⟩ | ⟨-, hnil, -⟩ | ⟨-, -, ha⟩ := assemble_cases hexPrefix policy source start
  · exact absurd hs hout
  · rw [hnil] at hd
    cases hd
  · exact ⟨_, ha, hd⟩

/-- A diagnostic of one line of the source, in pass 1, is answered. -/
theorem assemble_reports_line {a b : List Line} {l : Line} {d : AssemblyError} (hs : inRange start)
    (hl : parseSource hexPrefix source = a ++ l :: b)
    (hd : d ∈ (pass1Line policy (pass1 policy a ⟨start, [], [], []⟩) l).errors) :
    ∃ es, assemble hexPrefix policy source start = .diagnostics es ∧ d ∈ es := by
  refine assemble_reports hs (List.mem_append_left _ ?_)
  rw [sourcePass1, hl]
  exact pass1Line_errors_subset_pass1 policy a b l _ hd

end

theorem mem_placeBody_wrong {policy : LengthPolicy} {p : Pass1} {n column : Nat} {kind : AssemblyErrorKind} :
    diagnostic n column kind ∈ (placeBody policy n (.wrong column kind) p).errors :=
  List.mem_append_right _ List.mem_cons_self

theorem mem_placeBody_org {policy : LengthPolicy} {p : Pass1} {n column : Nat} {x : Expr}
    (hx : x.value p.symbols = none) :
    diagnostic n column .undefinedSymbol ∈ (placeBody policy n (.statement column (.org x)) p).errors := by
  simp [placeBody, orgErrors, hx]

theorem mem_recordLabel_duplicate {p : Pass1} {n column : Nat} {name : Name} {v : Int}
    (h : p.symbols.lookup name = some v) :
    diagnostic n column .duplicateLabel ∈ (recordLabel n (some (name, column)) p).errors := by
  simp [recordLabel, h]

/-- Every label of the lines walked is known after them. -/
theorem pass1_lookup_isSome {policy : LengthPolicy} {ls : List Line} {p : Pass1} {l : Line} {name : Name} {c : Nat}
    (hl : l ∈ ls) (hlabel : l.label = some (name, c)) : ∃ v, (pass1 policy ls p).symbols.lookup name = some v := by
  obtain ⟨a, b, rfl⟩ := List.append_of_mem hl
  obtain ⟨v, hv⟩ := recordLabel_isSome l.number name c (pass1 policy a p)
  refine ⟨v, ?_⟩
  rw [pass1_append, pass1_cons]
  refine pass1_lookup ?_
  rwa [pass1Line, placeBody_symbols, hlabel]

/-! ### Where diagnostics come from -/

/-- A diagnostic made from its kind, line and column. -/
def IsDiagnostic (d : AssemblyError) : Prop := ∃ kind line column, d = diagnostic line column kind

theorem recordLabel_isDiagnostic {n : Nat} {label : Option (Name × Nat)} {p : Pass1}
    (hp : ∀ d ∈ p.errors, IsDiagnostic d) : ∀ d ∈ (recordLabel n label p).errors, IsDiagnostic d := by
  unfold recordLabel
  split
  · exact hp
  · next name column =>
    split
    · exact List.forall_mem_append.mpr ⟨hp, List.forall_mem_singleton.mpr ⟨_, _, _, rfl⟩⟩
    · exact hp

theorem orgErrors_isDiagnostic {n column : Nat} {st : Statement} {syms : Symbols} :
    ∀ d ∈ orgErrors n column st syms, IsDiagnostic d := by
  unfold orgErrors
  split
  · split
    · exact List.forall_mem_singleton.mpr ⟨_, _, _, rfl⟩
    · exact List.forall_mem_nil _
  · exact List.forall_mem_nil _

theorem placeBody_isDiagnostic {policy : LengthPolicy} {n : Nat} {body : Body} {p : Pass1}
    (hp : ∀ d ∈ p.errors, IsDiagnostic d) : ∀ d ∈ (placeBody policy n body p).errors, IsDiagnostic d := by
  cases body with
  | empty => exact hp
  | statement column st => exact List.forall_mem_append.mpr ⟨hp, orgErrors_isDiagnostic⟩
  | wrong column kind => exact List.forall_mem_append.mpr ⟨hp, List.forall_mem_singleton.mpr ⟨_, _, _, rfl⟩⟩

theorem pass1_isDiagnostic {policy : LengthPolicy} {ls : List Line} {p : Pass1}
    (hp : ∀ d ∈ p.errors, IsDiagnostic d) : ∀ d ∈ (pass1 policy ls p).errors, IsDiagnostic d := by
  induction ls generalizing p with
  | nil => exact hp
  | cons l ls ih => exact ih (placeBody_isDiagnostic (recordLabel_isDiagnostic hp))

theorem pass2_isDiagnostic {syms : Symbols} {sts : List Placed} :
    ∀ d ∈ (pass2 syms sts ⟨[], []⟩).errors, IsDiagnostic d := by
  intro d hd
  obtain hnil | ⟨st, -, kind, -, hd⟩ := mem_pass2_errors.mp hd
  · cases hnil
  · exact ⟨kind, _, _, hd⟩

end Sys2Proof.Machine
end

section
/-! The settled statements about the encoding (30_encoding.md). -/

namespace Sys2Proof.Proofs

open Sys2Proof.Machine Sys2Proof.Claims

/-- Settles O1: each instruction's encoding meets its own row, whose fields are the operands. -/
theorem decodeOfEncodeIsTheInstruction : Obligations.DecodeOfEncodeIsTheInstruction :=
  fun _ rest hi => decode_encode hi rest

/-- Settles O2: what a row builds from a word encodes to that word. -/
theorem decodedWordsAreTheEncoding : Obligations.DecodedWordsAreTheEncoding := fun _ _ _ h => decode_encodes h

/-- Settles O3: the rows differ in OP and F, but for NOP's and SLA's, which the count separates. -/
theorem decodeTableRowsAreDisjoint : Obligations.DecodeTableRowsAreDisjoint :=
  ⟨rfl, filter_holds_length_le_one, fun _ _ hr h => decodeFirst_of_holds hr h, fun _ h => decodeFirst_of_no_row h⟩

/-- Settles O4: the words that meet no row are those listed, and a step on one stops at the decode. -/
theorem invalidWordsAreThoseListed : Obligations.InvalidWordsAreThoseListed :=
  ⟨fun _ => decodeFirst_eq_invalid_iff_invalidWord, fun _ hs hw =>
    step_of_invalid hs (decodeFirst_eq_invalid_iff_invalidWord.mpr hw)⟩

/-- Settles O5: the decoded words are the encoding, whose format bit and number of words are its length. -/
theorem lengthIsKnownFromTheFormatBit : Obligations.LengthIsKnownFromTheFormatBit := by
  intro w ws rest i h
  obtain ⟨-, henc⟩ := decode_encodes h
  have hlen : (w :: ws).length = i.words + rest.length := by rw [henc, List.length_append, encode_length]
  have hskip : skipLength w = i.words := by
    cases he : encode i with
    | nil => cases i <;> cases he
    | cons v vs =>
      rw [he] at henc
      cases henc
      exact skipLength_of_encode he
  refine ⟨hskip.symm, hskip, ?_⟩
  rw [List.length_cons] at hlen
  omega

/-- Settles O6: the words are encodings, so the round trip decodes them. -/
theorem writtenOutWordsDecode : Obligations.WrittenOutWordsDecode :=
  ⟨decode_encode (i := .ldShort none 100) rfl [], decode_encode (i := .stoLong none true 200) rfl [],
    decode_encode (i := .aShort (some .xr1) 5) rfl [], decode_encode (i := .orShort none 104) rfl [],
    decode_encode (i := .sra 1) rfl [],
    decode_encode (i := .bscLong (some .xr3) true ⟨true, true, true, true, true⟩ 300) rfl [],
    decode_encode (i := .wait) rfl []⟩

/-- Settles O10, row by row of R101. -/
theorem effectiveAddressTable : Obligations.EffectiveAddressTable := by
  refine ⟨fun m t o => ⟨resolve_eq_effective, resolve_eq_fault⟩, fun m x disp addr => ?_⟩
  refine ⟨?_, rfl, ?_, rfl, ?_, resolve_indirect m (some x) addr⟩
  · rw [resolve_short, indexed_untagged]; rfl
  · rw [resolve_direct, indexed_untagged]; rfl
  · rw [resolve_indirect, indexed_untagged]; rfl

/-- Settles O11, from the two outcomes of the checked write. -/
theorem iarWriteIsChecked : Obligations.IarWriteIsChecked := by
  refine fun v s => ⟨fun hout => writeIar_out s (by omega), fun hlo hhi => ?_⟩
  have hin : inRange v := ⟨hlo, hhi⟩
  exact ⟨BitVec.ofInt 12 v, toNat_ofInt_twelve hin, writeIar_in s hin⟩

/-- Settles O36: the fetch reads the words that decode, and the step counts what Execute answers. -/
theorem stepRunsTheDecodedInstruction : Obligations.StepRunsTheDecodedInstruction := by
  intro s i hs hd
  have hfetch : fetchInstr s = .ok i := hd.elim fetchInstr_of_decode_one fun ⟨hlt, h⟩ => fetchInstr_of_decode_two hlt h
  rw [step_of_fetchInstr hs hfetch]
  refine ⟨fun t ht => ?_, fun f hf => ?_⟩
  · rw [ht]; rfl
  · rw [hf]; rfl

/-- Settles O37, in the order of the step: halted, decode, second fetch. -/
theorem faultsBeforeExecutionInOrder : Obligations.FaultsBeforeExecutionInOrder :=
  fun _ => ⟨step_of_halted, step_of_invalid, fun hs hi ⟨_, hd⟩ => step_of_long_at_top hs hi hd⟩

end Sys2Proof.Proofs
end

section
/-! The settled statements about the assembler (30_encoding.md R120 to R129). -/

namespace Sys2Proof.Proofs

open Sys2Proof.Machine Sys2Proof.Claims

/-- Settles O55: a known operand takes the length R124 gives it, and what is emitted decodes by the round trip. -/
theorem assembledWordsDecodeToTheStatement : Obligations.AssembledWordsDecodeToTheStatement := by
  refine fun r x e syms policy hx => ⟨fun hs => ?_, fun hs ha => ?_, fun hs ha => ?_⟩
  · rw [statementLength_known_short policy hx hs]
    exact ⟨rfl, emit_short hx hs⟩
  · rw [statementLength_known_long policy hx hs]
    exact ⟨rfl, emit_long hx ha⟩
  · rw [statementLength_known_long policy hx hs]
    exact emit_long_out hx ha

/-- Settles O56: the policy gives the length, and pass 2 holds the value to the field of that length. -/
theorem forwardReferenceTakesThePolicysLength : Obligations.ForwardReferenceTakesThePolicysLength := by
  refine fun r e known syms policy hk => ⟨statementLength_unknown policy hk, emit_undefined, fun x hx => ?_⟩
  refine ⟨fun hlen hs => ?_, fun hlen hs => ?_, fun hlen ha => ?_, fun hlen ha => ?_⟩ <;> rw [hlen]
  · exact emit_short hx hs
  · exact emit_short_out hx hs
  · exact emit_long hx ha
  · exact emit_long_out hx ha

/-- Settles O57: apart from ORG, both passes take the statement's length. -/
theorem passesAgreeOnLengths : Obligations.PassesAgreeOnLengths := by
  intro policy known syms st ws cursor h
  by_cases horg : ∃ n, st = .org n
  · obtain ⟨n, rfl⟩ := horg
    cases h
    exact .inl ⟨n, rfl, rfl⟩
  · have hst : ∀ n, st ≠ .org n := not_exists.mp horg
    right
    rw [cursorAfter_eq_add hst, length_of_emit h hst]

/-- Settles O58, from the three answers of `assemble`: a Program has no diagnostic, so every statement was emitted. -/
theorem assembleAnswersAProgramOrDiagnostics : Obligations.AssembleAnswersAProgramOrDiagnostics := by
  intro hexPrefix policy source start p1
  obtain ⟨hout, ha⟩ | ⟨hin, hnil, ha⟩ | ⟨hin, hne, ha⟩ := assemble_cases hexPrefix policy source start
  · refine ⟨fun _ => ha, fun hin => absurd hin hout, fun p hp => ?_⟩
    rw [ha] at hp
    cases hp
  · refine ⟨fun hout => absurd hin hout, fun _ => .inl ⟨_, ha⟩, fun p hp => ?_⟩
    rw [ha] at hp
    cases hp
    refine ⟨rfl, fun st hst => ?_, fun a w => ?_⟩
    · cases he : emit p1.symbols st.length st.statement with
      | ok ws => exact ⟨ws, rfl⟩
      | error kind =>
        have hd := (mem_pass2_errors (p := ⟨[], []⟩)).mpr (.inr ⟨st, hst, kind, he, rfl⟩)
        rw [(List.append_eq_nil_iff.mp hnil).2] at hd
        cases hd
    · simp only [mem_pass2_words, mem_atAddresses, List.not_mem_nil, false_or]
      rfl
  · refine ⟨fun hout => absurd hin hout, fun _ => .inr ⟨_, hne, ha⟩, fun p hp => ?_⟩
    rw [ha] at hp
    cases hp

/-- Settles O59: each problem's diagnostic is added by its own line or statement and none is ever dropped; nothing else
adds one. -/
theorem diagnosticsAreAccumulated : Obligations.DiagnosticsAreAccumulated := by
  intro hexPrefix policy source start hs lines p1 Reports
  refine ⟨?wrong, ?duplicate, ?org, ?pass2, ?all⟩
  case wrong =>
    intro l hl column kind hbody
    obtain ⟨a, b, hab⟩ := List.append_of_mem hl
    refine assemble_reports_line hs hab ?_
    rw [pass1Line, hbody]
    exact mem_placeBody_wrong
  case duplicate =>
    intro a b l name column hab hlabel ⟨l', hl', c, hlabel'⟩
    obtain ⟨v, hv⟩ := pass1_lookup_isSome (policy := policy) (p := ⟨start, [], [], []⟩) hl' hlabel'
    refine assemble_reports_line hs hab (placeBody_errors_subset _ _ _ _ ?_)
    rw [hlabel]
    exact mem_recordLabel_duplicate hv
  case org =>
    intro a b l n column hab hbody hn
    refine assemble_reports_line hs hab ?_
    rw [pass1Line, hbody]
    exact mem_placeBody_org hn
  case pass2 =>
    intro st hst kind he
    exact assemble_reports hs (List.mem_append_right _ (mem_pass2_errors.mpr (.inr ⟨st, hst, kind, he, rfl⟩)))
  case all =>
    intro es hes d hd
    obtain ⟨hout, -⟩ | ⟨-, -, ha⟩ | ⟨-, -, ha⟩ := assemble_cases hexPrefix policy source start
    · exact absurd hs hout
    · rw [ha] at hes
      cases hes
    · rw [ha] at hes
      cases hes
      have hdiag : IsDiagnostic d := (List.mem_append.mp hd).elim
        (pass1_isDiagnostic (List.forall_mem_nil _) d) (pass2_isDiagnostic d)
      obtain ⟨kind, line, column, rfl⟩ := hdiag
      exact ⟨kind, line, column, rfl, rfl, rfl, rfl⟩

end Sys2Proof.Proofs
end

section
/-! SUPPORT. How the rows of a memory-reference mnemonic decode, and how an instruction that resolves its operand ends:
the outcomes of `advance`, of the operand's access and of the write of one word, in the shapes the claims use
(30_encoding.md R95, R96, R104, R111, R112, R114). -/

namespace Sys2Proof.Machine

open Sys2Proof.Claims

/-! ### The two rows of a mnemonic -/

theorem secondWordFaults_of_long {s : State} {complete : Word → Instr}
    (hd : decodeFirst (s.mem.word 4095) = .long complete) : SecondWordFaults s :=
  fun hs hi => step_of_long_at_top hs hi hd

theorem formsDecode_of_rows {short long : Word} {makeShort : Tag → BitVec 8 → Instr}
    {makeLong : Tag → Bool → Word → Instr} (hshort : Row.shortForm short makeShort ∈ decodeTable)
    (hlong : Row.longForm long makeLong ∈ decodeTable) : FormsDecode short long makeShort makeLong := by
  have hdecode : ∀ w, w &&& 0xFC7F#16 = long → decodeFirst w = .long (makeLong (tagField w) (iaField w)) :=
    fun w hw => decodeFirst_of_holds hlong ((plain_holds ..).mpr hw)
  exact ⟨fun w hw => decodeFirst_of_holds hshort ((plain_holds ..).mpr hw), hdecode,
    fun s hs => secondWordFaults_of_long (hdecode _ hs)⟩

theorem opField_and {w m : Word} (hm : opField m = BitVec.allOnes 5) : opField (w &&& m) = opField w := by
  rw [opField, BitVec.extractLsb'_and, ← opField.eq_def m, hm, BitVec.and_allOnes, opField]

/-- LDX and STX have no tag 0 (R95, R97). -/
theorem decodeFirst_of_untagged_index {w : Word} (hop : opField w = 0x0C#5 ∨ opField w = 0x0D#5)
    (ht : tagField w = none) : decodeFirst w = .invalid := by
  have hnat : (opField w).toNat = 0x0C ∨ (opField w).toNat = 0x0D := hop.imp (congrArg _) (congrArg _)
  exact decodeFirst_eq_invalid_iff_invalidWord.mpr
    (.inr (.inr (.inr (.inr (.inr (.inl ⟨hnat, tagField_eq_none_iff.mp ht⟩))))))

theorem indexFormsDecode_of_rows {short long : Word} {makeShort : XReg → BitVec 8 → Instr}
    {makeLong : XReg → Bool → Word → Instr} (hshort : Row.shortIndexForm short makeShort ∈ decodeTable)
    (hlong : Row.longIndexForm long makeLong ∈ decodeTable)
    (hopShort : opField short = 0x0C#5 ∨ opField short = 0x0D#5)
    (hopLong : opField long = 0x0C#5 ∨ opField long = 0x0D#5) : IndexFormsDecode short long makeShort makeLong := by
  have hdecode : ∀ w x, w &&& 0xFC7F#16 = long → tagField w = some x →
      decodeFirst w = .long (makeLong x (iaField w)) := fun w x hw hx =>
    (decodeFirst_of_holds hlong (tagged_holds_of_tag hw hx)).trans (longIndexForm_build hx)
  refine ⟨fun w hw ht => ?_, fun w x hw hx => ?_, fun w hw ht => ?_, hdecode,
    fun s x hs hx => secondWordFaults_of_long (hdecode _ x hs hx)⟩
  · rw [← hw, opField_and rfl] at hopShort
    exact decodeFirst_of_untagged_index hopShort ht
  · exact (decodeFirst_of_holds hshort (tagged_holds_of_tag hw hx)).trans (shortIndexForm_build hx)
  · rw [← hw, opField_and rfl] at hopLong
    exact decodeFirst_of_untagged_index hopLong ht

/-! ### The end of an instruction -/

theorem finish_advance_in {len : Nat} {s : State} (h : inRange (s.iar.toNat + len : Int)) :
    finish (advance len s) = .next { s with iar := BitVec.ofInt 12 (s.iar.toNat + len) } :=
  congrArg finish (writeIar_in s h)

theorem finish_advance_out {len : Nat} {s : State} (h : ¬ inRange (s.iar.toNat + len : Int)) :
    finish (advance len s) = .fault (.addressOutOfRange (s.iar.toNat + len)) :=
  congrArg finish (writeIar_out s h)

theorem goesTo_finish_advance (len : Nat) (s : State) : GoesTo (finish (advance len s)) (s.iar.toNat + len) s :=
  ⟨finish_advance_out, finish_advance_in⟩

/-! ### The access at the effective address -/

/-- An instruction that begins by resolving its operand goes on with the EA of R101, or ends at the pointer. -/
theorem addressed_of_resolve {r : Result} {m : Memory} {t : Tag} {o : Operand} {k : Int → Except Fault State}
    {atEA : Int → Prop} (hr : r = finish (resolve m t o >>= k)) (hk : ∀ ea, r = finish (k ea) → atEA ea) :
    Addressed r m t o atEA := by
  refine ⟨fun hind hout => ?_, fun hin => hk _ ?_⟩
  · rw [hr, resolve_eq_fault hind hout, bind_error, finish_error]
  · rw [hr, resolve_eq_effective hin, bind_ok]

/-- The access at the EA faults with the EA where that is outside memory. -/
theorem addressed_of_access {α : Type} {r : Result} {m : Memory} {t : Tag} {o : Operand}
    {access : Int → Except Fault α} {value : Int → α} {f : α → Except Fault State} {atEA : Int → Prop}
    (haccess : ∀ ea, access ea = if inRange ea then .ok (value ea) else raise (.addressOutOfRange ea))
    (hr : r = finish (resolve m t o >>= access >>= f))
    (hout : ∀ ea, ¬ inRange ea → r = .fault (.addressOutOfRange ea) → atEA ea)
    (hin : ∀ ea, inRange ea → r = finish (f (value ea)) → atEA ea) : Addressed r m t o atEA := by
  rw [bind_assoc] at hr
  refine addressed_of_resolve hr fun ea hea => ?_
  rw [haccess] at hea
  by_cases h : inRange ea
  · rw [if_pos h] at hea
    exact hin ea h hea
  · rw [if_neg h] at hea
    exact hout ea h hea

theorem addressed_of_readOperand {r : Result} {m : Memory} {t : Tag} {o : Operand} {f : Word → Except Fault State}
    {atEA : Int → Prop} (hr : r = finish (readOperand m t o >>= f))
    (hout : ∀ ea, ¬ inRange ea → r = .fault (.addressOutOfRange ea) → atEA ea)
    (hin : ∀ ea, inRange ea → r = finish (f (m.word ea.toNat)) → atEA ea) : Addressed r m t o atEA :=
  addressed_of_access (access := memRead m) (fun _ => rfl) hr hout hin

theorem addressed_of_writeOperand {r : Result} {m : Memory} {t : Tag} {o : Operand} {v : Word}
    {f : Memory → Except Fault State} {atEA : Int → Prop} (hr : r = finish (writeOperand m t o v >>= f))
    (hout : ∀ ea, ¬ inRange ea → r = .fault (.addressOutOfRange ea) → atEA ea)
    (hin : ∀ ea, inRange ea → r = finish (f (m.setWord ea.toNat v)) → atEA ea) : Addressed r m t o atEA :=
  addressed_of_access (access := fun ea => memWrite m ea v) (fun _ => rfl) hr hout hin

theorem writes_setWord {r : Result} {s : State} {addr : Int} {v : Word} {after : Memory → State}
    (hm : s.mem.wf = true) (ha : inRange addr) (hr : r = .next (after (s.mem.setWord addr.toNat v))) :
    Writes r s addr v after :=
  ⟨_, hr, memWrite_wf hm (memWrite_in _ v ha), memRead_setWord hm ha v⟩

/-! ### Instructions by the shape of their meaning -/

section
variable {i : Instr} {len : Nat} {t : Tag} {o : Operand}

theorem readsOperand_of_exec {effect : Word → State → State} (hiar : ∀ v s, (effect v s).iar = s.iar)
    (h : ∀ s, exec i s = finish (readOperand s.mem t o >>= fun v => advance len (effect v s))) :
    ReadsOperand i len t o effect := by
  refine fun s => addressed_of_readOperand (h s) (fun ea hout hr => ?_) (fun ea hin hr => ?_)
  · exact ⟨fun _ => hr, fun hin => absurd hin hout⟩
  · refine ⟨fun hout => absurd hin hout, fun _ => ?_⟩
    rw [hr, ← hiar (s.mem.word ea.toNat) s]
    exact goesTo_finish_advance _ _

theorem storesOperand_of_exec {value : State → Word}
    (h : ∀ s, exec i s = finish (writeOperand s.mem t o (value s) >>= fun m => advance len (s.setMem m))) :
    StoresOperand i len t o value := by
  refine fun s => addressed_of_writeOperand (h s) (fun ea hout hr => ?_) (fun ea hin hr => ?_)
  · exact ⟨fun _ => hr, fun hin => absurd hin hout, fun hin => absurd hin hout⟩
  · refine ⟨fun hout => absurd hin hout, fun _ hnext => ?_, fun _ hnext hm => writes_setWord hm hin ?_⟩
    · exact hr.trans (finish_advance_out hnext)
    · exact hr.trans (finish_advance_in hnext)

theorem loadsIndex_of_exec {x : XReg} (h : ∀ s, exec i s = finish (readOperand s.mem none o >>= fun v =>
      advance len ((s.setMem (writeXr s.mem x v)).defineSignZero v))) : LoadsIndex i len x o := by
  refine fun s => addressed_of_readOperand (h s) (fun ea hout hr => ?_) (fun ea hin hr => ?_)
  · exact ⟨fun _ => hr, fun hin => absurd hin hout, fun hin => absurd hin hout⟩
  · refine ⟨fun hout => absurd hin hout, fun _ hnext => ?_,
      fun _ hnext hm => writes_setWord hm (XReg.address_inRange x) ?_⟩
    · exact hr.trans (finish_advance_out hnext)
    · exact hr.trans (finish_advance_in hnext)

end

end Sys2Proof.Machine
end

section
/-! The settled statements about loads and stores (40_load_store.md). -/

namespace Sys2Proof.Proofs

open Sys2Proof.Machine Sys2Proof.Claims

/-- Settles O12: LD reads its operand, then sets ACC, Sign and Zero and advances. -/
theorem ldLoadsTheOperand : Obligations.LdLoadsTheOperand :=
  ⟨formsDecode_of_rows (by simp [decodeTable]) (by simp [decodeTable]),
    fun _ _ => readsOperand_of_exec (fun _ _ => rfl) fun _ => rfl,
    fun _ _ _ => readsOperand_of_exec (fun _ _ => rfl) fun _ => rfl⟩

/-- Settles O13: STO writes ACC at its EA in one word, then advances. -/
theorem stoStoresTheAccumulator : Obligations.StoStoresTheAccumulator :=
  ⟨formsDecode_of_rows (by simp [decodeTable]) (by simp [decodeTable]),
    fun _ _ => storesOperand_of_exec fun _ => rfl, fun _ _ _ => storesOperand_of_exec fun _ => rfl⟩

/-- Settles O14: LDX reads at its unindexed EA, then writes the one word of its register and advances. -/
theorem ldxLoadsTheIndexRegister : Obligations.LdxLoadsTheIndexRegister :=
  ⟨indexFormsDecode_of_rows (by simp [decodeTable]) (by simp [decodeTable]) (.inl rfl) (.inl rfl),
    fun _ _ => loadsIndex_of_exec fun _ => rfl, fun _ _ _ => loadsIndex_of_exec fun _ => rfl⟩

/-- Settles O15: STX is STO with the register's word, read before the write, and no tag. -/
theorem stxStoresTheIndexRegister : Obligations.StxStoresTheIndexRegister :=
  ⟨indexFormsDecode_of_rows (by simp [decodeTable]) (by simp [decodeTable]) (.inr rfl) (.inr rfl),
    fun _ _ => storesOperand_of_exec fun _ => rfl, fun _ _ _ => storesOperand_of_exec fun _ => rfl⟩

end Sys2Proof.Proofs
end

section
/-! SUPPORT. The results and flags of A and S as arithmetic on words (41_arithmetic.md R150–R154): the result modulo
2^16, the overflow against the library's signed-overflow predicates, and the state each leaves before IAR moves. -/

namespace Sys2Proof.Machine

variable (a x : Word)

/-! ### Results -/

theorem addResult_eq : addResult a x = a + x := by
  simp [addResult, exactSum, trunc16, Word.uint, BitVec.ofInt_add]

theorem subResult_eq : subResult a x = a - x := by
  simp [subResult, exactDiff, trunc16, Word.uint, Int.sub_eq_add_neg, BitVec.ofInt_add, BitVec.ofInt_neg,
    BitVec.sub_eq_add_neg]

/-! ### Overflow -/

theorem addOverflow_eq : addOverflow a x = decide (a.toInt + x.toInt < -32768 ∨ a.toInt + x.toInt > 32767) :=
  signedOverflow_eq_outsideSigned _

theorem subOverflow_eq : subOverflow a x = decide (a.toInt - x.toInt < -32768 ∨ a.toInt - x.toInt > 32767) :=
  signedOverflow_eq_outsideSigned _

/-- The bounds of R150 and R152 are those of a signed word of 16 bits, as the library writes them. -/
theorem signedOverflow_eq_bounds (n : Int) : signedOverflow n = (decide (n ≥ 2 ^ 15) || decide (n < -2 ^ 15)) := by
  rw [signedOverflow, Bool.or_comm]
  exact congrArg₂ or (decide_eq_decide.mpr (by omega)) rfl

theorem addOverflow_eq_saddOverflow : addOverflow a x = a.saddOverflow x :=
  signedOverflow_eq_bounds _

theorem subOverflow_eq_ssubOverflow : subOverflow a x = a.ssubOverflow x :=
  signedOverflow_eq_bounds _

/-! ### The state after the arithmetic -/

variable (t : Tag) (o : Operand) (s : State)

theorem addToAcc_eq : addToAcc t o s = readOperand s.mem t o >>= fun v => advance o.len
    { s with
      acc := s.acc + v, carry := decide (s.acc.toNat + v.toNat ≥ 65536)
      overflow := decide (s.acc.toInt + v.toInt < -32768 ∨ s.acc.toInt + v.toInt > 32767)
      sign := (s.acc + v).getLsbD 15, zero := decide (s.acc + v = 0#16) } := by
  simp only [addToAcc, addResult_eq, addCarry_eq, addOverflow_eq]
  rfl

theorem subtractFromAcc_eq : subtractFromAcc t o s = readOperand s.mem t o >>= fun v => advance o.len
    { s with
      acc := s.acc - v, carry := decide (s.acc.toNat < v.toNat)
      overflow := decide (s.acc.toInt - v.toInt < -32768 ∨ s.acc.toInt - v.toInt > 32767)
      sign := (s.acc - v).getLsbD 15, zero := decide (s.acc - v = 0#16) } := by
  simp only [subtractFromAcc, subResult_eq, subCarry_eq, subOverflow_eq]
  rfl

end Sys2Proof.Machine
end

section
/-! The settled statements about arithmetic (41_arithmetic.md). -/

namespace Sys2Proof.Proofs

open Sys2Proof.Machine Sys2Proof.Claims

/-- Settles O16: A reads its operand, leaves the sum and its flags, and advances. -/
theorem addsTheOperand : Obligations.AddsTheOperand :=
  ⟨formsDecode_of_rows (by simp [decodeTable]) (by simp [decodeTable]),
    fun t disp => readsOperand_of_exec (fun _ _ => rfl) fun s => congrArg finish (addToAcc_eq t (.short disp) s),
    fun t ia addr => readsOperand_of_exec (fun _ _ => rfl) fun s => congrArg finish (addToAcc_eq t (.long ia addr) s)⟩

/-- Settles O17: S reads its operand, leaves the difference and its flags, and advances. -/
theorem subtractsTheOperand : Obligations.SubtractsTheOperand :=
  ⟨formsDecode_of_rows (by simp [decodeTable]) (by simp [decodeTable]),
    fun t disp => readsOperand_of_exec (fun _ _ => rfl) fun s => congrArg finish (subtractFromAcc_eq t (.short disp) s),
    fun t ia addr => readsOperand_of_exec (fun _ _ => rfl) fun s =>
      congrArg finish (subtractFromAcc_eq t (.long ia addr) s)⟩

/-- Settles O29: the sign rule of A is the library's for the signed overflow of a sum, bit 15 being the sign bit. -/
theorem addOverflowIsTheSignRule : Obligations.AddOverflowIsTheSignRule := by
  intro a x
  rw [addOverflow_eq_saddOverflow, addResult_eq, BitVec.saddOverflow_eq]
  simp only [BitVec.msb_eq_getLsbD_last, bne, Nat.reduceSub]

/-- Settles O30: the sign rule of S is the library's for the signed overflow of a difference, by the sign of ACC. -/
theorem subtractOverflowIsTheSignRule : Obligations.SubtractOverflowIsTheSignRule := by
  intro a x
  rw [subOverflow_eq_ssubOverflow, subResult_eq, BitVec.ssubOverflow_eq]
  simp only [BitVec.msb_eq_getLsbD_last, Nat.reduceSub]
  cases a.getLsbD 15 with
  | false => simp
  | true => simp

end Sys2Proof.Proofs
end

section
/-! SUPPORT. AND and OR are one instruction with two word operations: ACC is combined with the operand, Sign and Zero
follow from the result (42_logical.md R170–R173). -/

namespace Sys2Proof.Machine

open Sys2Proof.Claims

/-- `defineSignZero` and `setAcc` write three fields, so that Carry and Overflow stay (R170, R172). -/
theorem setAcc_defineSignZero (s : State) (r : Word) : (s.defineSignZero r).setAcc r =
    { s with acc := r, sign := r.getLsbD 15, zero := decide (r = 0#16) } := rfl

theorem readsOperand_of_combine {i : Instr} {len : Nat} {t : Tag} {o : Operand} (op : Word → Word → Word)
    (h : ∀ s, exec i s = finish (readOperand s.mem t o >>= fun x =>
      advance len ((s.defineSignZero (op s.acc x)).setAcc (op s.acc x)))) :
    ReadsOperand i len t o fun x s => { s with
      acc := op s.acc x, sign := (op s.acc x).getLsbD 15, zero := decide (op s.acc x = 0#16) } := by
  simp only [setAcc_defineSignZero] at h
  exact readsOperand_of_exec (fun _ _ => rfl) h

end Sys2Proof.Machine
end

section
/-! The settled statements about the logical instructions (42_logical.md). -/

namespace Sys2Proof.Proofs

open Sys2Proof.Machine Sys2Proof.Claims

/-- Settles O18: AND reads its operand, combines ACC with it bit by bit, and advances. -/
theorem andsTheOperand : Obligations.AndsTheOperand :=
  ⟨formsDecode_of_rows (by simp [decodeTable]) (by simp [decodeTable]),
    fun _ _ => readsOperand_of_combine (· &&& ·) fun _ => rfl,
    fun _ _ _ => readsOperand_of_combine (· &&& ·) fun _ => rfl⟩

/-- Settles O19: OR is AND with the other word operation. -/
theorem orsTheOperand : Obligations.OrsTheOperand :=
  ⟨formsDecode_of_rows (by simp [decodeTable]) (by simp [decodeTable]),
    fun _ _ => readsOperand_of_combine (· ||| ·) fun _ => rfl,
    fun _ _ _ => readsOperand_of_combine (· ||| ·) fun _ => rfl⟩

end Sys2Proof.Proofs
end

section
/-! SUPPORT. SLA and SRA in the library's shifts of words (43_shift.md R180–R183): the results as `<<<` and `sshiftRight`,
their value at the counts that leave zeros or copies of the sign, and the state each leaves before IAR moves. -/

namespace Sys2Proof.Machine

/-! ### Results -/

section
variable (v : Word) (n : Nat)

theorem slaResult_eq : slaResult v n = v <<< n := by
  have hproduct : Word.uint v * 2 ^ n = (v.toNat <<< n : Nat) := by
    rw [Nat.shiftLeft_eq, Nat.cast_mul, Nat.cast_pow, Nat.cast_ofNat]
  rw [slaResult, hproduct, trunc16, BitVec.ofInt_natCast]
  rfl

theorem sraResult_eq : sraResult v n = v.sshiftRight n := by
  rw [sraResult, trunc16, BitVec.sshiftRight, Int.shiftRight_eq_div_pow, Nat.cast_pow, Nat.cast_ofNat]

/-- An arithmetic shift keeps the sign bit (R182). -/
theorem getLsbD_sraResult_sign : (sraResult v n).getLsbD 15 = v.getLsbD 15 := by
  have hmsb : (v.sshiftRight n).msb = v.msb := BitVec.msb_sshiftRight
  simpa only [sraResult_eq, BitVec.msb_eq_getLsbD_last] using hmsb

end

/-! ### Counts that leave zeros or copies of the sign -/

section
variable {v : Word} {n : Nat}

theorem slaResult_of_le (hn : 16 ≤ n) : slaResult v n = 0#16 := by
  rw [slaResult_eq, BitVec.shiftLeft_eq_zero hn]

/-- From a count of 15 on, every bit of the result is the old bit 15 (R182). -/
theorem getLsbD_sraResult_of_le (hn : 15 ≤ n) {i : Nat} (hi : i < 16) :
    (sraResult v n).getLsbD i = v.getLsbD 15 := by
  rw [sraResult_eq, BitVec.getLsbD_sshiftRight, decide_eq_false (Nat.not_le.mpr hi), Bool.not_false, Bool.true_and]
  split
  · rw [show n + i = 15 by omega]
  · exact BitVec.msb_eq_getLsbD_last v

theorem sraResult_of_le (hn : 15 ≤ n) : sraResult v n = if v.getLsbD 15 then 0xFFFF#16 else 0#16 := by
  refine BitVec.eq_of_getLsbD_eq fun i hi => ?_
  rw [getLsbD_sraResult_of_le hn hi]
  cases v.getLsbD 15 with
  | true => exact (decide_eq_true hi).symm.trans (BitVec.getLsbD_allOnes ..).symm
  | false => exact BitVec.getLsbD_zero.symm

end

/-! ### The state after the shift -/

variable (n : BitVec 6) (s : State)

theorem execSla_eq : execSla n s = finish (advance 1
    { s with
      acc := s.acc <<< n.toNat, carry := if n.toNat ≤ 16 then s.acc.getLsbD (16 - n.toNat) else false
      sign := (s.acc <<< n.toNat).getLsbD 15, zero := decide (s.acc <<< n.toNat = 0#16) }) := by
  simp only [execSla, slaResult_eq]
  rfl

theorem execSra_eq : execSra n s = finish (advance 1
    { s with
      acc := s.acc.sshiftRight n.toNat, sign := s.acc.getLsbD 15
      zero := decide (s.acc.sshiftRight n.toNat = 0#16) }) := by
  simp only [execSra, setAcc_defineSignZero, getLsbD_sraResult_sign]
  rw [sraResult_eq]

end Sys2Proof.Machine
end

section
/-! The settled statements about the shifts (43_shift.md). -/

namespace Sys2Proof.Proofs

open Sys2Proof.Machine

/-- Settles O20: a word of the row that is not NOP's has a count, so SLA's row reads it; SLA multiplies by 2^N, which is
the shift, and advances. -/
theorem shiftsLeft : Obligations.ShiftsLeft := by
  refine ⟨fun w hw hnop => ?_, fun n s _ => ?_, fun n s t hn h => ?_⟩
  · have hrow : Row.sla ∈ decodeTable := by simp [decodeTable]
    have hcount := (nop_or_sla_iff.mpr hw).resolve_left hnop
    exact decodeFirst_of_holds hrow (sla_holds_iff.mpr hcount)
  · rw [exec_sla, execSla_eq]
    exact goesTo_finish_advance 1 _
  · rw [exec_sla, execSla_eq_next] at h
    obtain ⟨-, rfl⟩ := h
    exact slaResult_of_le hn

/-- Settles O21: SRA divides by 2^N and rounds down, which is the arithmetic shift, and advances. -/
theorem shiftsRightKeepingTheSign : Obligations.ShiftsRightKeepingTheSign := by
  refine ⟨fun w hw => ?_, fun n s => ?_, fun n s t hn h => ?_⟩
  · have hrow : (Row.plain 0x1800#16 0xFFC0#16 fun w => .short (.sra (countField w))) ∈ decodeTable := by
      simp [decodeTable]
    exact decodeFirst_of_holds hrow ((plain_holds ..).mpr hw)
  · rw [exec_sra, execSra_eq]
    exact goesTo_finish_advance 1 _
  · rw [exec_sra, execSra_eq_next] at h
    obtain ⟨-, rfl⟩ := h
    exact sraResult_of_le hn

end Sys2Proof.Proofs
end

section
/-! SUPPORT. BSC and BSI (44_control.md R189–R197): the conditions on the flags, the two branches of each BSC, a BSI by
its store and its jump, and the call and the return through the link word that R197 makes of them. -/

namespace Sys2Proof.Machine

open Sys2Proof.Claims

/-! ### Conditions -/

theorem condAny_eq_true_iff {c : Conditions} {s : State} : condAny c s = true ↔ Selected c s := by
  simp [condAny, Selected, or_assoc]

theorem condAny_eq_false_iff {c : Conditions} {s : State} : condAny c s = false ↔ ¬ Selected c s := by
  rw [← condAny_eq_true_iff, Bool.not_eq_true]

@[simp] theorem condAny_noConditions (s : State) : condAny noConditions s = false := rfl

/-! ### Skips and branches -/

section
variable {c : Conditions} {s : State}

theorem skipOnCondition_of_selected (h : Selected c s) : skipOnCondition c s =
    memRead s.mem (fallThrough s 1) >>= fun w => writeIar (fallThrough s 1 + skipLength w) s :=
  if_pos (condAny_eq_true_iff.mpr h)

theorem skipOnCondition_of_not_selected (h : ¬ Selected c s) : skipOnCondition c s = advance 1 s :=
  if_neg (mt condAny_eq_true_iff.mp h)

/-- The skip reads the word it passes over, so it faults there before it can fault on its target (R190). -/
theorem skipOnCondition_out (h : Selected c s) (hnext : ¬ inRange (fallThrough s 1)) :
    skipOnCondition c s = .error (.addressOutOfRange (fallThrough s 1)) := by
  rw [skipOnCondition_of_selected h, memRead_out _ hnext, bind_error]

theorem skipOnCondition_in (h : Selected c s) (hnext : inRange (fallThrough s 1)) : skipOnCondition c s =
    writeIar (fallThrough s 1 + skipLength (s.mem.word (fallThrough s 1).toNat)) s := by
  rw [skipOnCondition_of_selected h, memRead_in _ hnext, bind_ok]

end

theorem skipLength_cast (w : Word) : (skipLength w : Int) = if w.getLsbD 10 then 2 else 1 :=
  apply_ite Nat.cast _ _ _

theorem goesTo_finish_writeIar (v : Int) (s : State) : GoesTo (finish (writeIar v s)) v s :=
  ⟨fun hout => congrArg finish (writeIar_out s hout), fun hin => congrArg finish (writeIar_in s hin)⟩

/-- The EA is resolved either way and checked only when the branch goes there (R104, R107, R191). -/
theorem exec_bscLong_addressed (t : Tag) (ia : Bool) (c : Conditions) (addr : Word) (s : State) :
    Addressed (exec (.bscLong t ia c addr) s) s.mem t (.long ia addr) fun ea =>
      (¬ Selected c s → GoesTo (exec (.bscLong t ia c addr) s) ea s) ∧
      (Selected c s → GoesTo (exec (.bscLong t ia c addr) s) (s.iar.toNat + 2) s) := by
  refine addressed_of_resolve (k := fun ea => if condAny c s then advance 2 s else writeIar ea s) rfl
    fun ea hr => ⟨fun hsel => ?_, fun hsel => ?_⟩
  · rw [hr, if_neg (mt condAny_eq_true_iff.mp hsel)]
    exact goesTo_finish_writeIar ea s
  · rw [hr, if_pos (condAny_eq_true_iff.mpr hsel)]
    exact goesTo_finish_advance 2 s

/-! ### Calls -/

/-- The link word; from a long BSI at 4094 it is 4096, which 16 bits hold (R196). -/
theorem trunc16_fallThrough (s : State) (len : Nat) :
    trunc16 (fallThrough s len) = BitVec.ofNat 16 (s.iar.toNat + len) := by
  rw [fallThrough, ← Nat.cast_add, trunc16, BitVec.ofInt_natCast]

theorem callsSubroutine_of_exec {i : Instr} {t : Tag} {o : Operand}
    (h : ∀ s, exec i s = finish (branchAndStore t o s)) : CallsSubroutine i o.len t o := by
  refine fun s => addressed_of_resolve (h s) fun ea hr => ?_
  rw [trunc16_fallThrough] at hr
  refine ⟨fun hout => ?_, fun hin hout => ?_, fun hin hnext hm => writes_setWord hm hin ?_⟩
  · rw [hr, memWrite_out _ _ hout, bind_error, finish_error]
  · rw [hr, memWrite_in _ _ hin, bind_ok, writeIar_out _ hout, finish_error]
  · rw [hr, memWrite_in _ _ hin, bind_ok, writeIar_in _ hnext]
    rfl

theorem callsSubroutine_bsiLong (t : Tag) (ia : Bool) (addr : Word) :
    CallsSubroutine (.bsiLong t ia addr) 2 t (.long ia addr) :=
  callsSubroutine_of_exec (o := .long ia addr) fun _ => rfl

/-! ### The call and the return of R197 -/

theorem indexedAddress_long_untagged (m : Memory) (ia : Bool) (addr : Word) :
    indexedAddress m none (.long ia addr) = addr.toNat := Int.add_zero _

theorem effective_direct_untagged (m : Memory) (addr : Word) : effective m none (.long false addr) = addr.toNat :=
  indexedAddress_long_untagged m false addr

theorem effective_indirect_untagged (m : Memory) (addr : Word) :
    effective m none (.long true addr) = (m.word addr.toNat).toNat := by
  rw [effective, indexedAddress_long_untagged]
  rfl

/-- `BSI.L 0 x`. -/
theorem exec_call_writes {s : State} {x : Word} (hm : s.mem.wf = true) (hx : x.toNat < 4095) :
    Writes (exec (.bsiLong none false x) s) s x.toNat (BitVec.ofNat 16 (s.iar.toNat + 2)) fun m =>
      { s with mem := m, iar := BitVec.ofInt 12 (x.toNat + 1) } := by
  obtain ⟨-, hcall⟩ := callsSubroutine_bsiLong none false x s
  obtain ⟨-, -, hwrites⟩ := hcall fun hind => absurd hind Bool.false_ne_true
  rw [effective_direct_untagged] at hwrites
  exact hwrites (by omega) (by omega) hm

/-- `BSC.I 0 x 0`. -/
theorem exec_return_eq_next {u : State} {x : Word} {link : Nat} (hx : x.toNat ≤ 4095) (hlink : link ≤ 4095)
    (hword : (u.mem.word x.toNat).toNat = link) :
    exec (.bscLong none true noConditions x) u = .next { u with iar := BitVec.ofNat 12 link } := by
  obtain ⟨-, hbranch⟩ := exec_bscLong_addressed none true noConditions x u
  rw [indexedAddress_long_untagged, effective_indirect_untagged, hword] at hbranch
  obtain ⟨htaken, -⟩ := hbranch fun _ => by omega
  obtain ⟨-, hgoes⟩ := htaken (condAny_eq_false_iff.mp (condAny_noConditions u))
  rw [hgoes (by omega), BitVec.ofInt_natCast]

end Sys2Proof.Machine
end

section
/-! The settled statements about BSC and BSI (44_control.md). -/

namespace Sys2Proof.Proofs

open Sys2Proof.Machine Sys2Proof.Claims

/-- Settles O22: the five disjuncts are those of `CondAny`, and the word's are its condition field's. -/
theorem conditionsTestTheFlags : Obligations.ConditionsTestTheFlags :=
  ⟨fun _ _ => condAny_eq_true_iff, fun _ _ => condAny_eq_true_iff, condAny_noConditions⟩

/-- Settles O23: a skip reads the word at the next address and goes past it by its format bit; no skip is an advance. -/
theorem shortBscSkipsTheNextInstruction : Obligations.ShortBscSkipsTheNextInstruction := by
  refine ⟨fun w hw => ?decode, fun c s => ⟨fun hsel hout => ?out, fun hsel hin => ?skip, fun hsel => ?next⟩⟩
  case decode =>
    have hrow : (Row.plain 0x4800#16 0xFFC4#16 fun w => .short (.bscShort (condField w))) ∈ decodeTable := by
      simp [decodeTable]
    exact decodeFirst_of_holds hrow ((plain_holds ..).mpr hw)
  case out => exact congrArg finish (skipOnCondition_out hsel hout)
  case skip =>
    have hexec : exec (.bscShort c) s = finish (writeIar _ s) := congrArg finish (skipOnCondition_in hsel hin)
    rw [hexec, skipLength_cast]
    exact goesTo_finish_writeIar _ s
  case next =>
    have hexec : exec (.bscShort c) s = finish (advance 1 s) := congrArg finish (skipOnCondition_of_not_selected hsel)
    rw [hexec]
    exact goesTo_finish_advance 1 s

/-- Settles O24: the row decodes, its second word is missing at 4095, and the branch is that of R191. -/
theorem longBscBranches : Obligations.LongBscBranches := by
  have hrow : (Row.plain 0x4C00#16 0xFC44#16 fun w => .long (.bscLong (tagField w) (iaField w) (condField w))) ∈
      decodeTable := by simp [decodeTable]
  have hdecode : ∀ w, w &&& 0xFC44#16 = 0x4C00#16 →
      decodeFirst w = .long (.bscLong (tagField w) (iaField w) (condField w)) :=
    fun w hw => decodeFirst_of_holds hrow ((plain_holds ..).mpr hw)
  exact ⟨hdecode, fun s hs => secondWordFaults_of_long (hdecode _ hs), exec_bscLong_addressed⟩

/-- Settles O25: BSI resolves its EA, stores the link word there and writes IAR last, in both formats. -/
theorem bsiStoresTheReturnAddress : Obligations.BsiStoresTheReturnAddress :=
  ⟨formsDecode_of_rows (by simp [decodeTable]) (by simp [decodeTable]),
    fun _ disp => callsSubroutine_of_exec (o := .short disp) fun _ => rfl, callsSubroutine_bsiLong⟩

/-- Settles O26: the call leaves the next address in the word at x, and a return that finds it there goes to it. -/
theorem returnThroughTheLinkWord : Obligations.ReturnThroughTheLinkWord := by
  intro s x hm hx hnext
  obtain ⟨m, hcall, -, hread⟩ := exec_call_writes hm hx
  refine ⟨_, hcall, ?iar, fun u hu => exec_return_eq_next hx.le hnext ?link⟩
  case iar =>
    have hin : inRange (x.toNat + 1 : Int) := by omega
    exact_mod_cast toNat_ofInt_twelve hin
  case link =>
    have hstored := (hread x.toNat).trans (if_pos rfl)
    obtain ⟨-, hlink⟩ := memRead_eq_ok.mp hstored
    have hword : u.mem.word x.toNat = BitVec.ofNat 16 (s.iar.toNat + 2) := hu.trans hlink
    rw [hword, BitVec.toNat_ofNat]
    omega

end Sys2Proof.Proofs
end

section
/-! SUPPORT. WAIT and NOP (45_system.md R210, R212): what each leaves, and the counted step on a one-word instruction. -/

namespace Sys2Proof.Machine

/-- The step on a one-word instruction needs no second fetch, so it is that instruction executed and counted (R110). -/
theorem step_of_decodeFirst_short {s : State} {w : Word} {i : Instr} (hs : s.halted = false)
    (hw : s.mem.word s.iar.toNat = w) (hd : decodeFirst w = .short i) : step s = retire (exec i s) :=
  step_of_fetchInstr hs (fetchInstr_eq_ok.mpr (.inl ((congrArg decodeFirst hw).trans hd)))

theorem decodeFirst_wait : decodeFirst 0x3000#16 = .short .wait := rfl

theorem decodeFirst_nop : decodeFirst 0x1000#16 = .short .nop := rfl

/-- An advance by no words writes IAR's own address back, which is in range at 4095 too. -/
theorem finish_advance_zero (s : State) : finish (advance 0 s) = .next s := by
  have hin : inRange (s.iar.toNat + (0 : Nat) : Int) := by omega
  have hiar : BitVec.ofInt 12 (s.iar.toNat + (0 : Nat)) = s.iar := by
    rw [← Nat.cast_add, BitVec.ofInt_natCast, Nat.add_zero, BitVec.ofNat_toNat, BitVec.setWidth_eq]
  rw [finish_advance_in hin, hiar]

theorem exec_wait_eq (s : State) : exec .wait s = .next (s.setHalted true) := finish_advance_zero _

theorem goesTo_exec_nop (s : State) : Claims.GoesTo (exec .nop s) (s.iar.toNat + 1) s := goesTo_finish_advance 1 s

theorem ofInt_toNat_succ (a : BitVec 12) : BitVec.ofInt 12 (a.toNat + 1) = a + 1 := by
  rw [← Nat.cast_add_one, BitVec.ofInt_natCast, BitVec.ofNat_add, BitVec.ofNat_toNat, BitVec.setWidth_eq]
  rfl

theorem exec_nop_of_lt {s : State} (h : s.iar.toNat < 4095) : exec .nop s = .next (s.setIar (s.iar + 1)) := by
  obtain ⟨-, hin⟩ := goesTo_exec_nop s
  rw [hin (by omega), ofInt_toNat_succ]
  rfl

end Sys2Proof.Machine
end

section
/-! The settled statements about WAIT and NOP (45_system.md). -/

namespace Sys2Proof.Proofs

open Sys2Proof.Machine

/-- Settles O27: WAIT's advance by 0 words succeeds at every IAR, so the step on its word is always counted. -/
theorem waitHalts : Obligations.WaitHalts := by
  refine ⟨decodeFirst_wait, exec_wait_eq, fun s hs hw => ?_⟩
  rw [step_of_decodeFirst_short hs hw decodeFirst_wait, exec_wait_eq]
  rfl

/-- Settles O28: NOP is an advance by 1 word, which stays in range below 4095. -/
theorem nopOnlyAdvances : Obligations.NopOnlyAdvances := by
  refine ⟨decodeFirst_nop, goesTo_exec_nop, fun s hs hw hlt => ?_⟩
  rw [step_of_decodeFirst_short hs hw decodeFirst_nop, exec_nop_of_lt hlt]
  rfl

end Sys2Proof.Proofs
end

section
/-! SUPPORT. How a step and a run end (60_exceptions.md R220 to R228, R242 to R245): the faults of an instruction, the
outcomes of a step, the loop of `run` by its next step, and two runs of which one goes on where the other stopped. -/

namespace Sys2Proof.Machine

open Sys2Proof.Claims

/-! ### What an instruction can fault with -/

/-- A computation that answers, or ends with an address outside 0..4095 (R222). -/
def AddressFaultsOnly {α : Type} (x : Except Fault α) : Prop :=
  (∃ v, x = .ok v) ∨ ∃ a, ¬ inRange a ∧ x = .error (.addressOutOfRange a)

theorem AddressFaultsOnly.bind {α β : Type} {x : Except Fault α} {f : α → Except Fault β}
    (hx : AddressFaultsOnly x) (hf : ∀ v, AddressFaultsOnly (f v)) : AddressFaultsOnly (x >>= f) := by
  obtain ⟨v, rfl⟩ | ⟨a, ha, rfl⟩ := hx
  · exact hf v
  · exact .inr ⟨a, ha, rfl⟩

theorem AddressFaultsOnly.ite {α : Type} {p : Prop} [Decidable p] {x y : Except Fault α}
    (hx : AddressFaultsOnly x) (hy : AddressFaultsOnly y) : AddressFaultsOnly (if p then x else y) := by
  split
  · exact hx
  · exact hy

theorem memRead_addressFaultsOnly (m : Memory) (addr : Int) : AddressFaultsOnly (memRead m addr) := by
  by_cases h : inRange addr
  · exact .inl ⟨_, memRead_in m h⟩
  · exact .inr ⟨_, h, memRead_out m h⟩

theorem memWrite_addressFaultsOnly (m : Memory) (addr : Int) (v : Word) : AddressFaultsOnly (memWrite m addr v) := by
  by_cases h : inRange addr
  · exact .inl ⟨_, memWrite_in m v h⟩
  · exact .inr ⟨_, h, memWrite_out m v h⟩

theorem writeIar_addressFaultsOnly (v : Int) (s : State) : AddressFaultsOnly (writeIar v s) := by
  by_cases h : inRange v
  · exact .inl ⟨_, writeIar_in s h⟩
  · exact .inr ⟨_, h, writeIar_out s h⟩

theorem advance_addressFaultsOnly (len : Nat) (s : State) : AddressFaultsOnly (advance len s) :=
  writeIar_addressFaultsOnly _ s

theorem resolve_addressFaultsOnly (m : Memory) (t : Tag) (o : Operand) : AddressFaultsOnly (resolve m t o) := by
  rcases o with disp | ⟨_ | _, addr⟩
  · exact .inl ⟨_, resolve_short m t disp⟩
  · exact .inl ⟨_, resolve_direct m t addr⟩
  · exact (memRead_addressFaultsOnly m _).bind fun _ => .inl ⟨_, rfl⟩

theorem readOperand_addressFaultsOnly (m : Memory) (t : Tag) (o : Operand) : AddressFaultsOnly (readOperand m t o) :=
  (resolve_addressFaultsOnly m t o).bind (memRead_addressFaultsOnly m)

theorem writeOperand_addressFaultsOnly (m : Memory) (t : Tag) (o : Operand) (v : Word) :
    AddressFaultsOnly (writeOperand m t o v) :=
  (resolve_addressFaultsOnly m t o).bind fun ea => memWrite_addressFaultsOnly m ea v

theorem skipOnCondition_addressFaultsOnly (c : Conditions) (s : State) : AddressFaultsOnly (skipOnCondition c s) :=
  .ite ((memRead_addressFaultsOnly s.mem _).bind fun _ => writeIar_addressFaultsOnly _ s)
    (advance_addressFaultsOnly 1 s)

theorem branchOnCondition_addressFaultsOnly (t : Tag) (o : Operand) (c : Conditions) (s : State) :
    AddressFaultsOnly (branchOnCondition t o c s) :=
  (resolve_addressFaultsOnly s.mem t o).bind fun ea =>
    .ite (advance_addressFaultsOnly o.len s) (writeIar_addressFaultsOnly ea s)

theorem branchAndStore_addressFaultsOnly (t : Tag) (o : Operand) (s : State) :
    AddressFaultsOnly (branchAndStore t o s) :=
  (resolve_addressFaultsOnly s.mem t o).bind fun ea =>
    (memWrite_addressFaultsOnly s.mem ea _).bind fun _ => writeIar_addressFaultsOnly (ea + 1) _

theorem exec_eq_finish (i : Instr) (s : State) : ∃ x, exec i s = finish x ∧ AddressFaultsOnly x := by
  cases i with
  | nop | sla _ | sra _ | wait =>
    simp only [exec, execNop, execSla, execSra, execWait]
    exact ⟨_, rfl, advance_addressFaultsOnly _ _⟩
  | bsiShort _ _ | bsiLong _ _ _ => exact ⟨_, rfl, branchAndStore_addressFaultsOnly _ _ s⟩
  | bscShort c => exact ⟨_, rfl, skipOnCondition_addressFaultsOnly c s⟩
  | bscLong t ia c addr => exact ⟨_, rfl, branchOnCondition_addressFaultsOnly t (.long ia addr) c s⟩
  | stoShort _ _ | stoLong _ _ _ | stxShort _ _ | stxLong _ _ _ =>
    exact ⟨_, rfl, (writeOperand_addressFaultsOnly s.mem _ _ _).bind fun _ => advance_addressFaultsOnly _ _⟩
  | _ => exact ⟨_, rfl, (readOperand_addressFaultsOnly s.mem _ _).bind fun _ => advance_addressFaultsOnly _ _⟩

theorem exec_cases (i : Instr) (s : State) : (∃ t, exec i s = .next t) ∨
    ∃ a, ¬ inRange a ∧ exec i s = .fault (.addressOutOfRange a) := by
  obtain ⟨x, hexec, ⟨t, rfl⟩ | ⟨a, ha, rfl⟩⟩ := exec_eq_finish i s
  · exact .inl ⟨t, hexec⟩
  · exact .inr ⟨a, ha, hexec⟩

/-! ### What a step can do -/

theorem fetchInstr_cases (s : State) : fetchInstr s = .error (.invalidOpcode s.iar (s.mem.word s.iar.toNat)) ∨
    AddressFaultsOnly (fetchInstr s) := by
  rw [fetchInstr]
  cases decodeFirst (firstWord s) with
  | invalid => exact .inl rfl
  | short i => exact .inr (.inl ⟨i, rfl⟩)
  | long complete => exact .inr ((memRead_addressFaultsOnly s.mem _).bind fun _ => .inl ⟨_, rfl⟩)

theorem step_cases (s : State) : (∃ t, step s = .next t) ∨
    (s.halted = true ∧ step s = .fault .alreadyHalted) ∨
    (s.halted = false ∧ step s = .fault (.invalidOpcode s.iar (s.mem.word s.iar.toNat))) ∨
    (s.halted = false ∧ ∃ a, ¬ inRange a ∧ step s = .fault (.addressOutOfRange a)) := by
  cases hs : s.halted with
  | true => exact .inr (.inl ⟨rfl, step_of_halted hs⟩)
  | false =>
    obtain hinvalid | ⟨i, hi⟩ | ⟨a, ha, hfetch⟩ := fetchInstr_cases s
    · exact .inr (.inr (.inl ⟨rfl, step_of_fetch_error hs hinvalid⟩))
    · rw [step_of_fetchInstr hs hi]
      obtain ⟨t, ht⟩ | ⟨a, ha, hexec⟩ := exec_cases i s
      · exact .inl ⟨_, congrArg retire ht⟩
      · exact .inr (.inr (.inr ⟨rfl, a, ha, congrArg retire hexec⟩))
    · exact .inr (.inr (.inr ⟨rfl, a, ha, step_of_fetch_error hs hfetch⟩))

theorem step_ne_refused (s : State) (q : Refusal) : step s ≠ .refused q := by
  intro hq
  obtain ⟨_, h⟩ | ⟨-, h⟩ | ⟨-, h⟩ | ⟨-, _, -, h⟩ := step_cases s <;> cases h.symm.trans hq

theorem step_fault_cases {s : State} {f : Fault} (hf : step s = .fault f) :
    (f = .alreadyHalted ∧ s.halted = true) ∨
    (f = .invalidOpcode s.iar (s.mem.word s.iar.toNat) ∧ s.halted = false) ∨
    ∃ a, f = .addressOutOfRange a ∧ ¬ inRange a ∧ s.halted = false := by
  obtain ⟨_, h⟩ | ⟨hs, h⟩ | ⟨hs, h⟩ | ⟨hs, a, ha, h⟩ := step_cases s <;> cases h.symm.trans hf
  · exact .inl ⟨rfl, hs⟩
  · exact .inr (.inl ⟨rfl, hs⟩)
  · exact .inr (.inr ⟨a, rfl, ha, hs⟩)

/-- CycleLimitExceeded is `run`'s alone (R223). -/
theorem step_fault_ne_limit {s : State} {f : Fault} (hf : step s = .fault f) (k : Int) : f ≠ .cycleLimitExceeded k := by
  obtain ⟨rfl, -⟩ | ⟨rfl, -⟩ | ⟨a, rfl, -⟩ := step_fault_cases hf <;> exact Fault.noConfusion

/-- A step that leaves the machine halted ran a WAIT, which moves neither IAR nor memory (R210). -/
theorem word_of_step_halted {s t : State} (h : step s = .next t) (ht : t.halted = true) :
    t.mem.word t.iar.toNat = 0x3000#16 := by
  obtain ⟨hs, -⟩ := step_eq_next.mp h
  have hword := (step_halted h).mp ht
  have hwait : step s = .next (s.setHalted true).countStep := by
    rw [step_of_decodeFirst_short hs hword decodeFirst_wait, exec_wait_eq, retire_next]
  cases h.symm.trans hwait
  exact hword

/-! ### The loop of `run`, by its next step -/

section
variable (n : Int) (left : Nat) {s t : State}

theorem runLoop_of_halt (h : step s = .next t) (ht : t.halted = true) : runLoop n (left + 1) s = (t, .halted) := by
  simp only [runLoop, h, ht, if_true]

theorem runLoop_of_next (h : step s = .next t) (ht : t.halted = false) :
    runLoop n (left + 1) s = runLoop n left t := by
  simp only [runLoop, h, ht, Bool.false_eq_true, if_false]

theorem runLoop_of_fault {f : Fault} (h : step s = .fault f) : runLoop n (left + 1) s = (s, .failed f) := by
  simp only [runLoop, h]

end

theorem run_of_lt_one {n : Int} (hn : n < 1) (s : State) : run n s = (s, .refused (.cycleLimitBelowOne n)) := if_pos hn

theorem run_of_halted {n : Int} {s : State} (hn : n ≥ 1) (hs : s.halted = true) :
    run n s = (s, .failed .alreadyHalted) := by
  rw [run, if_neg (by omega), if_pos hs]

theorem run_eq_runLoop {n : Int} {s : State} (hn : n ≥ 1) (hs : s.halted = false) : run n s = runLoop n n.toNat s := by
  rw [run, if_neg (by omega), hs, if_neg Bool.false_ne_true]

/-- A run begins with one step, and has a limit less by 1 for the others. -/
theorem run_eq_runLoop_succ {n : Int} {s : State} (hn : n ≥ 1) (hs : s.halted = false) :
    run n s = runLoop n ((n - 1).toNat + 1) s := by
  rw [run_eq_runLoop hn hs, show n.toNat = (n - 1).toNat + 1 by omega]

theorem run_one {s t : State} (hs : s.halted = false) (h : step s = .next t) (ht : t.halted = false) :
    run 1 s = (t, .failed (.cycleLimitExceeded 1)) :=
  (run_eq_runLoop le_rfl hs).trans (runLoop_of_next 1 0 h ht)

/-! ### Where a run ends -/

/-- From a running machine the loop ends halted, by the step that halts it, or it ends otherwise and running. -/
theorem runLoop_end (n : Int) (left : Nat) {s : State} (hs : s.halted = false) :
    ((runLoop n left s).2 = .halted ∧ (runLoop n left s).1.halted = true ∧ ∃ u, step u = .next (runLoop n left s).1) ∨
    ((runLoop n left s).2 ≠ .halted ∧ (runLoop n left s).1.halted = false) := by
  induction left generalizing s with
  | zero => exact .inr ⟨Ending.noConfusion, hs⟩
  | succ left ih =>
    cases h : step s with
    | next t =>
      cases ht : t.halted with
      | true =>
        rw [runLoop_of_halt n left h ht]
        exact .inl ⟨rfl, ht, s, h⟩
      | false =>
        rw [runLoop_of_next n left h ht]
        exact ih ht
    | fault f =>
      rw [runLoop_of_fault n left h]
      exact .inr ⟨Ending.noConfusion, hs⟩
    | refused q => exact absurd h (step_ne_refused s q)

theorem run_end (n : Int) (s : State) :
    (endsNormally n s ∧ s.halted = false ∧ (run n s).1.halted = true ∧ ∃ u, step u = .next (run n s).1) ∨
    (¬ endsNormally n s ∧ (run n s).1.halted = s.halted) := by
  rw [endsNormally]
  by_cases hn : n < 1
  · rw [run_of_lt_one hn]
    exact .inr ⟨Ending.noConfusion, rfl⟩
  · have hn' : n ≥ 1 := by omega
    cases hs : s.halted with
    | true =>
      rw [run_of_halted hn' hs]
      exact .inr ⟨Ending.noConfusion, hs⟩
    | false =>
      rw [run_eq_runLoop hn' hs]
      exact (runLoop_end n n.toNat hs).imp_left fun ⟨hend, hhalt, hstep⟩ => ⟨hend, rfl, hhalt, hstep⟩

/-! ### Runs with different limits -/

theorem sameEnd_of_ne_limit {e : Ending} (he : ∀ k, e ≠ .failed (.cycleLimitExceeded k)) (n n' : Int) :
    SameEnd e n e n' := ⟨fun h => absurd h (he n), fun _ => ⟨rfl, he⟩⟩

theorem sameEnd_limit (n n' : Int) :
    SameEnd (.failed (.cycleLimitExceeded n)) n (.failed (.cycleLimitExceeded n')) n' :=
  ⟨fun _ => rfl, fun h => absurd rfl h⟩

/-- The limit that the loop carries shows in its fault alone. -/
theorem runLoop_sameEnd (n n' : Int) (left : Nat) (s : State) : (runLoop n' left s).1 = (runLoop n left s).1 ∧
    SameEnd (runLoop n left s).2 n (runLoop n' left s).2 n' := by
  induction left generalizing s with
  | zero => exact ⟨rfl, sameEnd_limit n n'⟩
  | succ left ih =>
    cases h : step s with
    | next t =>
      cases ht : t.halted with
      | true =>
        rw [runLoop_of_halt n left h ht, runLoop_of_halt n' left h ht]
        exact ⟨rfl, sameEnd_of_ne_limit (fun _ => Ending.noConfusion) n n'⟩
      | false =>
        rw [runLoop_of_next n left h ht, runLoop_of_next n' left h ht]
        exact ih t
    | fault f =>
      rw [runLoop_of_fault n left h, runLoop_of_fault n' left h]
      exact ⟨rfl, sameEnd_of_ne_limit (fun k he => step_fault_ne_limit h k (Ending.failed.inj he)) n n'⟩
    | refused q => exact absurd h (step_ne_refused s q)

/-- A loop that meets its limit completed each of its steps, so a longer one goes on from where it stopped. -/
theorem runLoop_add {m : Int} {j : Nat} {s t : State} (h : runLoop m j s = (t, .failed (.cycleLimitExceeded m)))
    (n : Int) (k : Nat) : runLoop n (k + j) s = runLoop n k t := by
  induction j generalizing s with
  | zero => rw [(Prod.mk.inj h).1, Nat.add_zero]
  | succ j ih =>
    cases hstep : step s with
    | next u =>
      cases hu : u.halted with
      | true =>
        rw [runLoop_of_halt m j hstep hu] at h
        cases h
      | false =>
        rw [runLoop_of_next m j hstep hu] at h
        exact (runLoop_of_next n (k + j) hstep hu).trans (ih h)
    | fault f =>
      rw [runLoop_of_fault m j hstep] at h
      exact absurd (Ending.failed.inj (Prod.mk.inj h).2) (step_fault_ne_limit hstep m)
    | refused q => exact absurd hstep (step_ne_refused s q)

/-- A run that meets its limit started and stopped on a running machine. -/
theorem running_of_run_limit {m : Int} {s t : State} (hm : m ≥ 1)
    (h : run m s = (t, .failed (.cycleLimitExceeded m))) : s.halted = false ∧ t.halted = false := by
  have hs : s.halted = false := by
    cases hs : s.halted with
    | true =>
      rw [run_of_halted hm hs] at h
      cases h
    | false => rfl
  obtain ⟨hnormal, -⟩ | ⟨-, hhalt⟩ := run_end m s
  · rw [endsNormally, h] at hnormal
    cases hnormal
  · rw [h, hs] at hhalt
    exact ⟨hs, hhalt⟩

theorem run_add {m n : Int} {s t : State} (hm : m ≥ 1) (hn : n ≥ 1)
    (h : run m s = (t, .failed (.cycleLimitExceeded m))) :
    (run (m + n) s).1 = (run n t).1 ∧ SameEnd (run n t).2 n (run (m + n) s).2 (m + n) := by
  obtain ⟨hs, ht⟩ := running_of_run_limit hm h
  rw [run_eq_runLoop hm hs] at h
  have hlimit : (m + n).toNat = n.toNat + m.toNat := by omega
  rw [run_eq_runLoop (by omega) hs, hlimit, runLoop_add h, run_eq_runLoop hn ht]
  exact runLoop_sameEnd n (m + n) n.toNat t

end Sys2Proof.Machine
end

section
/-! The settled statements about faults and the host's step and run (60_exceptions.md). -/

namespace Sys2Proof.Proofs

open Sys2Proof.Machine

/-- Settles O38: what faults in an instruction is an access or an IAR write, and the fetch adds InvalidOpcode. -/
theorem stepFaultsAreTheCoreFaults : Obligations.StepFaultsAreTheCoreFaults := by
  refine fun s => ⟨step_ne_refused s, fun f hf => (step_fault_cases hf).imp_right (Or.imp_right ?_)⟩
  rintro ⟨a, rfl, ha, hs⟩
  exact ⟨a, rfl, by omega, hs⟩

/-- Settles O39: both calls look at `halted` first. -/
theorem haltedMachineRefusesToRun : Obligations.HaltedMachineRefusesToRun := by
  refine fun s n hs hn => ⟨?_, run_of_halted hn hs⟩
  rw [hostStep, step_of_halted hs]

/-- Settles O42: the host's step answers the old state beside a fault, and a step is a function of the state. -/
theorem faultHasNoEffect : Obligations.FaultHasNoEffect := by
  intro s t f h
  obtain rfl := hostStep_failed h
  exact ⟨rfl, h⟩

/-- Settles O49: the loop by its first step; a step that does not halt is a run of limit 1, which a longer run goes on
from. -/
theorem runRepeatsStep : Obligations.RunRepeatsStep := by
  refine fun s n => ⟨fun hn => run_of_lt_one hn s, run_of_halted, fun hn hs =>
    ⟨fun f h => ?fault, fun t h ht => ?halt, fun t h ht hone => ?limit, fun t h ht hlt => ?goesOn⟩⟩
  case fault => rw [run_eq_runLoop_succ hn hs, runLoop_of_fault _ _ h]
  case halt => rw [run_eq_runLoop_succ hn hs, runLoop_of_halt _ _ h ht]
  case limit => rw [hone, run_one hs h ht]
  case goesOn =>
    have hrest := run_add (n := n - 1) le_rfl (by omega) (run_one hs h ht)
    rwa [show 1 + (n - 1) = n by omega] at hrest

/-- Settles O50: the first run's steps are those of the longer run, which then carries its own limit. -/
theorem runContinuesAfterTheLimit : Obligations.RunContinuesAfterTheLimit := fun _ _ _ _ hm hn h => run_add hm hn h

/-- Settles O52: the only ending in a halted state of a machine found running is the step of a WAIT. -/
theorem normalEndIsAtAWait : Obligations.NormalEndIsAtAWait := by
  intro s n
  obtain ⟨hend, hs, hhalt, u, hu⟩ | ⟨hend, hhalt⟩ := run_end n s
  · exact ⟨⟨fun _ => ⟨hs, hhalt⟩, fun _ => hend⟩, fun _ => word_of_step_halted hu hhalt⟩
  · refine ⟨⟨fun h => absurd h hend, fun ⟨hs, ht⟩ => ?_⟩, fun h => absurd h hend⟩
    rw [hhalt, hs] at ht
    cases ht

end Sys2Proof.Proofs
end

section
/-! SUPPORT. Resets, the load of a program and the instructions a run counts (70_reset_and_hazards.md R260 to R264,
R273; 20_memory.md R54). -/

namespace Sys2Proof.Machine

open Sys2Proof.Claims

/-! ### Resets -/

theorem softReset_eq (s : State) :
    softReset s = ⟨s.mem, 0#16, 0#16, 0#12, false, false, false, false, false, 0, 0⟩ := rfl

theorem hardReset_eq_reset (s : State) : hardReset s = State.reset := rfl

theorem reset_inv : State.reset.Inv := ⟨Memory.wf_nil, rfl⟩

theorem readMemory_reset {a : Int} (ha : inRange a) : readMemory a State.reset = .ok 0#16 :=
  memRead_eq_ok.mpr ⟨ha, Memory.word_nil a.toNat⟩

/-! ### The words of a load -/

/-- Outside its span a load changes no read; inside it the later words leave alone those before them. -/
theorem memRead_storeWords_outside {data : List Int} {m : Memory} {start : Nat} {b : Int}
    (hspan : start + data.length ≤ Config.memWords) (hb : b < start ∨ start + data.length ≤ b) :
    memRead (storeWords m start data) b = memRead m b := by
  induction data generalizing m start with
  | nil => rfl
  | cons d data ih =>
    simp only [Config.memWords, List.length_cons, Nat.cast_add, Nat.cast_one] at hspan hb ih
    have hstart : inRange (start : Int) := by omega
    calc memRead (storeWords (m.setWord start (trunc16 d)) (start + 1) data) b
        _ = memRead (m.setWord start (trunc16 d)) b := ih (by omega) (by omega)
        _ = memRead m b := memRead_setWord_other m hstart (by omega) _

theorem memRead_storeWords_inside {data : List Int} {m : Memory} {start : Nat} (hm : m.wf = true)
    (hspan : start + data.length ≤ Config.memWords) (k : Nat) (hk : k < data.length) :
    memRead (storeWords m start data) (start + k) = .ok (trunc16 data[k]) := by
  induction data generalizing m start k with
  | nil => exact absurd hk (Nat.not_lt_zero k)
  | cons d data ih =>
    rw [List.length_cons] at hspan hk
    have hcell : start < Config.memWords := by omega
    have hrest : start + 1 + data.length ≤ Config.memWords := by omega
    cases k with
    | zero =>
      have hstart : inRange (start : Int) := by unfold Config.memWords at hcell; omega
      calc memRead (storeWords (m.setWord start (trunc16 d)) (start + 1) data) (start + (0 : Nat))
          _ = memRead (m.setWord start (trunc16 d)) (start + (0 : Nat)) :=
            memRead_storeWords_outside hrest (.inl (by omega))
          _ = .ok (trunc16 d) := (memRead_setWord hm hstart _ _).trans (if_pos (Int.add_zero _))
    | succ k =>
      have haddr : (start : Int) + (k + 1 : Nat) = (start + 1 : Nat) + k := by omega
      rw [haddr]
      exact ih (Memory.wf_setWord hm hcell _) hrest k (by omega)

theorem loaded_storeWords {data : List Int} {m : Memory} {start : Nat} (hm : m.wf = true)
    (hspan : start + data.length ≤ Config.memWords) : Loaded m start data (storeWords m start data) :=
  ⟨storeWords_wf hm hspan, memRead_storeWords_inside hm hspan, fun _ => memRead_storeWords_outside hspan⟩

/-! ### The check of the span -/

/-- Whichever address of the span a failing load reports, it is outside memory (log entry 9). -/
theorem loadFaultAddress_out (start : Int) (n : Nat) : ¬ inRange (loadFaultAddress start n) := by
  unfold loadFaultAddress
  split
  · unfold Config.memWords
    omega
  · assumption

section
variable {start : Int} {data : List Int}

theorem loadWords_in (m : Memory) (hstart : inRange start) (hspan : start + data.length ≤ Config.memWords) :
    loadWords start data m = .ok (storeWords m start.toNat data) := if_pos ⟨hstart, hspan⟩

theorem loadWords_out (m : Memory) (h : ¬ (inRange start ∧ start + data.length ≤ Config.memWords)) :
    loadWords start data m = .error (.addressOutOfRange (loadFaultAddress start data.length)) := if_neg h

theorem loadProgram_in (s : State) (hstart : inRange start) (hspan : start + data.length ≤ Config.memWords) :
    loadProgram start data s =
      .ok ((s.setMem (storeWords s.mem start.toNat data)).setIar (BitVec.ofInt 12 start)) :=
  loadProgram_eq_ok.mpr ⟨_, loadWords_in s.mem hstart hspan, hstart, rfl⟩

theorem loadProgram_out (s : State) (h : ¬ (inRange start ∧ start + data.length ≤ Config.memWords)) :
    loadProgram start data s = .error (.addressOutOfRange (loadFaultAddress start data.length)) := by
  rw [loadProgram, loadWords_out s.mem h, bind_error]

end

/-! ### The instructions a run counts -/

/-- Each turn of the loop that goes on counts one instruction, and only the turn with none left meets the limit. -/
theorem runLoop_instrCount (n : Int) (left : Nat) (s : State) :
    (runLoop n left s).1.instrCount ≤ s.instrCount + left ∧
    ∀ k, (runLoop n left s).2 = .failed (.cycleLimitExceeded k) →
      k = n ∧ (runLoop n left s).1.instrCount = s.instrCount + left := by
  induction left generalizing s with
  | zero =>
    refine ⟨le_rfl, fun k hk => ⟨?_, rfl⟩⟩
    cases hk
    rfl
  | succ left ih =>
    cases h : step s with
    | next t =>
      obtain ⟨hcount, -⟩ := step_counters h
      cases ht : t.halted with
      | true =>
        rw [runLoop_of_halt n left h ht]
        have hle : t.instrCount ≤ s.instrCount + (left + 1) := by omega
        exact ⟨hle, fun _ => Ending.noConfusion⟩
      | false =>
        have hshift : t.instrCount + left = s.instrCount + (left + 1) := by omega
        rw [runLoop_of_next n left h ht, ← hshift]
        exact ih t
    | fault f =>
      rw [runLoop_of_fault n left h]
      exact ⟨Nat.le_add_right _ _, fun k hk => absurd (Ending.failed.inj hk) (step_fault_ne_limit h k)⟩
    | refused q => exact absurd h (step_ne_refused s q)

end Sys2Proof.Machine
end

section
/-! The settled statements about resets, loads and the limit of a run (70_reset_and_hazards.md). -/

namespace Sys2Proof.Proofs

open Sys2Proof.Machine Sys2Proof.Claims

/-- Settles O44: no cell is listed and both counters are 0. -/
theorem resetHasTheInvariant : Obligations.ResetHasTheInvariant := reset_inv

/-- Settles O46. -/
theorem softResetKeepsMemory : Obligations.SoftResetKeepsMemory := softReset_eq

/-- Settles O47: the empty memory is the power-on memory, and an unlisted cell reads 0. -/
theorem hardResetGivesThePowerOnState : Obligations.HardResetGivesThePowerOnState := by
  refine fun s => ⟨rfl, hardReset_eq_reset s, fun a ha => ?_⟩
  rw [hardReset_eq_reset]
  exact readMemory_reset ha

/-- Settles O48: the span is checked as a whole, so either every word is stored or the check fails before the first. -/
theorem loadProgramLoadsTheWholeSpan : Obligations.LoadProgramLoadsTheWholeSpan := by
  refine fun start words s hm => ⟨fun hstart hlast => ?fits, fun hout => ?outside⟩
  case fits =>
    have hspan : start + words.length ≤ Config.memWords := by unfold Config.memWords; omega
    refine ⟨_, loadProgram_in s hstart hspan, ?_⟩
    have hnat : (start.toNat : Int) = start := Int.toNat_of_nonneg hstart.1
    have hloaded := loaded_storeWords (start := start.toNat) (data := words) hm (by omega)
    rwa [hnat] at hloaded
  case outside =>
    have hcheck : ¬ (inRange start ∧ start + words.length ≤ Config.memWords) := by unfold Config.memWords; omega
    exact ⟨_, loadFaultAddress_out start words.length, loadProgram_out s hcheck⟩

/-- Settles O51: a halted machine counts nothing, and a running one loops with its limit as the count of turns. -/
theorem limitCountsInstructions : Obligations.LimitCountsInstructions := by
  intro s n hn
  cases hs : s.halted with
  | true =>
    rw [run_of_halted hn hs]
    have hle : (s.instrCount : Int) ≤ s.instrCount + n := by omega
    exact ⟨hle, fun _ h => absurd (Ending.failed.inj h) Fault.noConfusion⟩
  | false =>
    rw [run_eq_runLoop hn hs]
    obtain ⟨hle, hlimit⟩ := runLoop_instrCount n n.toNat s
    refine ⟨by omega, fun k hk => ?_⟩
    obtain ⟨hpayload, hcount⟩ := hlimit k hk
    exact ⟨hpayload, by omega⟩

end Sys2Proof.Proofs
end
